-- ==== Sys2Proof/Word.lean ====
section
/-! DEFINITION. The widths of the simple-cpu core: the 16-bit word and the fields of an instruction word. -/

namespace Sys2Proof

/-- A register, memory cell, address or instruction word: 16 bits (00_scope.md rule R8). -/
abbrev Word := BitVec 16

/-- A byte of a program image file, the only place bytes exist (20_memory.md rule R47). -/
abbrev Byte := BitVec 8

/-- A general register's index, 0 to 7 for gr0 to gr7 (10_state.md rule R20); the width of op1 (30_encoding.md rule R58). -/
abbrev Reg := BitVec 3

/-- The content of the op2 or op3 field (30_encoding.md rule R58). -/
abbrev Nibble := BitVec 4

/-- The content of the opcode field (30_encoding.md rule R58). -/
abbrev Opcode := BitVec 5

end Sys2Proof
end

