-- ==== Sys2Proof/Machine/Alu.lean ====
section
/-! DEFINITION. The ALU functions on 16-bit words (40_fetch_execute.md rules R99 to R103). -/

namespace Sys2Proof.Machine

/-- `(a + b) mod 2^16` (40_fetch_execute.md rule R99). -/
def add16 (a b : Word) : Word := a + b

/-- `(a - b) mod 2^16` (40_fetch_execute.md rule R99). -/
def sub16 (a b : Word) : Word := a - b

/-- Addition with carry in: the low 16 bits of the exact sum, and the carry out (40_fetch_execute.md rule R100). -/
def addc (a b : Word) (c : Bool) : Word × Bool :=
  let sum : Nat := a.toNat + b.toNat + c.toNat
  (BitVec.ofNat 16 sum, decide (sum > 0xFFFF))

/-- Subtraction with borrow in: the exact difference modulo 2^16, and the borrow out, 1 where the difference is negative
(40_fetch_execute.md rule R101). -/
def subc (a b : Word) (c : Bool) : Word × Bool :=
  let d : Int := (a.toNat : Int) - b.toNat - c.toNat
  (BitVec.ofInt 16 d, decide (d < 0))

/-- Bitwise AND (40_fetch_execute.md rule R102). -/
def and16 (a b : Word) : Word := a &&& b

/-- Bitwise inclusive OR (40_fetch_execute.md rule R102). -/
def or16 (a b : Word) : Word := a ||| b

/-- Bitwise exclusive OR (40_fetch_execute.md rule R102). -/
def xor16 (a b : Word) : Word := a ^^^ b

/-- Shift left, zeros entering at bit 0 (40_fetch_execute.md rule R103). -/
def shl16 (a : Word) (n : Nibble) : Word := a <<< n.toNat

/-- Shift right, zeros entering at bit 15 (40_fetch_execute.md rule R103). -/
def shr16 (a : Word) (n : Nibble) : Word := a >>> n.toNat

/-- Shift right, copies of bit 15 entering at bit 15, by the spec's formula (40_fetch_execute.md rule R103). -/
def sra16 (a : Word) (n : Nibble) : Word :=
  (a >>> n.toNat) ||| (if a.msb then (0xFFFF : Word) <<< (16 - n.toNat) else 0)

end Sys2Proof.Machine
end

