-- ==== Sys2Proof/Config.lean ====
section
/-! DEFINITION. The parameters of the hardware: the fixed sizes of 00_scope.md rule R8 and the parameters the spec
leaves open (00_scope.md rule R9). -/

namespace Sys2Proof

/-- IMEM_WORDS (00_scope.md rule R8). -/
abbrev imemWords : Nat := 256

/-- DMEM_WORDS (00_scope.md rule R8). -/
abbrev dmemWords : Nat := 256

/-- REGFIELD_POLICY: what a register-typed 4-bit field of 8 to 15 means (30_encoding.md rule R63). -/
inductive RegfieldPolicy where
  /-- The step raises IllegalRegisterIndex. -/
  | fault
  /-- The register index is the field's low three bits. -/
  | low3
  deriving DecidableEq, Repr

/-- IMAGE_BYTE_ORDER: the byte order of a program image file, OPEN in the spec
(70_reset_and_hazards.md rule R173, 92_eei_decisions.md D10). It is an argument of the loader and has no default. -/
inductive ByteOrder where
  | little
  | big
  deriving DecidableEq, Repr

/-- OPCODE_MAP: the opcode of each of the 27 mnemonics (30_encoding.md rule R66). The spec requires the map to be
injective (rule R67): `OpcodeMap.Injective` in Sys2Proof/Decode.lean. -/
structure OpcodeMap where
  nop : Opcode
  halt : Opcode
  load : Opcode
  store : Opcode
  ldih : Opcode
  add : Opcode
  addi : Opcode
  addc : Opcode
  sub : Opcode
  subi : Opcode
  subc : Opcode
  cmp : Opcode
  and : Opcode
  or : Opcode
  xor : Opcode
  sll : Opcode
  srl : Opcode
  sla : Opcode
  sra : Opcode
  jump : Opcode
  jmpr : Opcode
  bz : Opcode
  bnz : Opcode
  bn : Opcode
  bnn : Opcode
  bc : Opcode
  bnc : Opcode
  deriving DecidableEq, Repr

/-- The parameters a step can depend on (00_scope.md rule R9). Their defaults are `Params.default` in
Sys2Proof/Decode.lean. -/
structure Params where
  /-- OPCODE_MAP (30_encoding.md rule R66). -/
  opcodeMap : OpcodeMap
  /-- HALT_ADVANCES_PC (41_system.md rule R111). -/
  haltAdvancesPc : Bool
  /-- REGFIELD_POLICY (30_encoding.md rule R63). -/
  regfieldPolicy : RegfieldPolicy
  deriving DecidableEq, Repr

end Sys2Proof
end

