-- ==== Sys2Proof/Syntax.lean ====
section
/-! DEFINITION. The instructions of the core: the 27 mnemonics (00_scope.md rule R2), the four operand shapes
(30_encoding.md rule R60) and `Instr`, one constructor per row of spec/opcode_table.json. -/

namespace Sys2Proof

/-- The mnemonics of the instruction table, in the order of 00_scope.md rule R2. -/
inductive Mnemonic where
  | nop | halt | load | store | ldih | add | addi | addc | sub | subi | subc | cmp | and | or | xor
  | sll | srl | sla | sra | jump | jmpr | bz | bnz | bn | bnn | bc | bnc
  deriving DecidableEq, Repr

/-- The operand shapes NONE, R, I and RI (30_encoding.md rule R60). -/
inductive Shape where
  | shapeNone
  | shapeR
  | shapeI
  | shapeRI
  deriving DecidableEq, Repr

/-- A decoded instruction: its mnemonic and the fields it uses, each as the word holds it. `rA` is op1; `rB` and `rC`
are register-typed op2 and op3, four bits wide (their values 8 to 15 are 30_encoding.md rule R63); the immediates are
op2 and op3. Fields the instruction does not use are dropped (30_encoding.md rule R65). -/
inductive Instr where
  /-- NOP (41_system.md rule R110). -/
  | nop
  /-- HALT (41_system.md rule R111). -/
  | halt
  /-- LOAD (42_load_store.md rule R115). -/
  | load (rA : Reg) (rB imm4 : Nibble)
  /-- STORE (42_load_store.md rule R116). -/
  | store (rA : Reg) (rB imm4 : Nibble)
  /-- LDIH (43_arithmetic.md rule R120). -/
  | ldih (rA : Reg) (immHi immLo : Nibble)
  /-- ADD (43_arithmetic.md rule R121). -/
  | add (rA : Reg) (rB rC : Nibble)
  /-- ADDI (43_arithmetic.md rule R122). -/
  | addi (rA : Reg) (immHi immLo : Nibble)
  /-- ADDC (43_arithmetic.md rule R123). -/
  | addc (rA : Reg) (rB rC : Nibble)
  /-- SUB (43_arithmetic.md rule R124). -/
  | sub (rA : Reg) (rB rC : Nibble)
  /-- SUBI (43_arithmetic.md rule R125). -/
  | subi (rA : Reg) (immHi immLo : Nibble)
  /-- SUBC (43_arithmetic.md rule R126). -/
  | subc (rA : Reg) (rB rC : Nibble)
  /-- CMP (43_arithmetic.md rule R127). -/
  | cmp (rB rC : Nibble)
  /-- AND (44_logic_shift.md rule R130). -/
  | and (rA : Reg) (rB rC : Nibble)
  /-- OR (44_logic_shift.md rule R131). -/
  | or (rA : Reg) (rB rC : Nibble)
  /-- XOR (44_logic_shift.md rule R132). -/
  | xor (rA : Reg) (rB rC : Nibble)
  /-- SLL (44_logic_shift.md rule R133). -/
  | sll (rA : Reg) (rB imm4 : Nibble)
  /-- SRL (44_logic_shift.md rule R134). -/
  | srl (rA : Reg) (rB imm4 : Nibble)
  /-- SLA (44_logic_shift.md rule R135). -/
  | sla (rA : Reg) (rB imm4 : Nibble)
  /-- SRA (44_logic_shift.md rule R136). -/
  | sra (rA : Reg) (rB imm4 : Nibble)
  /-- JUMP (45_control_transfer.md rule R140). -/
  | jump (immHi immLo : Nibble)
  /-- JMPR (45_control_transfer.md rule R141). -/
  | jmpr (rA : Reg) (immHi immLo : Nibble)
  /-- BZ (45_control_transfer.md rule R142). -/
  | bz (rA : Reg) (immHi immLo : Nibble)
  /-- BNZ (45_control_transfer.md rule R143). -/
  | bnz (rA : Reg) (immHi immLo : Nibble)
  /-- BN (45_control_transfer.md rule R144). -/
  | bn (rA : Reg) (immHi immLo : Nibble)
  /-- BNN (45_control_transfer.md rule R145). -/
  | bnn (rA : Reg) (immHi immLo : Nibble)
  /-- BC (45_control_transfer.md rule R146). -/
  | bc (rA : Reg) (immHi immLo : Nibble)
  /-- BNC (45_control_transfer.md rule R147). -/
  | bnc (rA : Reg) (immHi immLo : Nibble)
  deriving DecidableEq, Repr

end Sys2Proof
end

