-- ==== Sys2Proof/WellFormed.lean ====
section
/-! DEFINITION. Well-formed instructions: every register-typed 4-bit field names a register. -/

namespace Sys2Proof

/-- The 4-bit field names one of gr0 to gr7 (30_encoding.md rules R62 and R63). -/
def regFieldOk (f : Nibble) : Bool := f.toNat < 8

/-- Every register-typed op2 and op3 of the instruction is 0 to 7 (30_encoding.md rules R62 and R78). op1 has three
bits and is always valid; immediates may hold any value. -/
def Instr.wellFormed : Instr → Bool
  | .nop => true
  | .halt => true
  | .load _ rB _ => regFieldOk rB
  | .store _ rB _ => regFieldOk rB
  | .ldih _ _ _ => true
  | .add _ rB rC => regFieldOk rB && regFieldOk rC
  | .addi _ _ _ => true
  | .addc _ rB rC => regFieldOk rB && regFieldOk rC
  | .sub _ rB rC => regFieldOk rB && regFieldOk rC
  | .subi _ _ _ => true
  | .subc _ rB rC => regFieldOk rB && regFieldOk rC
  | .cmp rB rC => regFieldOk rB && regFieldOk rC
  | .and _ rB rC => regFieldOk rB && regFieldOk rC
  | .or _ rB rC => regFieldOk rB && regFieldOk rC
  | .xor _ rB rC => regFieldOk rB && regFieldOk rC
  | .sll _ rB _ => regFieldOk rB
  | .srl _ rB _ => regFieldOk rB
  | .sla _ rB _ => regFieldOk rB
  | .sra _ rB _ => regFieldOk rB
  | .jump _ _ => true
  | .jmpr _ _ _ => true
  | .bz _ _ _ => true
  | .bnz _ _ _ => true
  | .bn _ _ _ => true
  | .bnn _ _ _ => true
  | .bc _ _ _ => true
  | .bnc _ _ _ => true

end Sys2Proof
end

