-- ==== Sys2Proof/Decode.lean ====
section
/-! DEFINITION. Decoding and encoding of instruction words (30_encoding.md): field extraction, the opcode map and its
default, the decoder, and the encoder after it. -/

namespace Sys2Proof

/-! ### The instruction table -/

/-- The mnemonics of the instruction table (00_scope.md rule R2). -/
def Mnemonic.all : List Mnemonic :=
  [.nop, .halt, .load, .store, .ldih, .add, .addi, .addc, .sub, .subi, .subc, .cmp, .and, .or, .xor,
   .sll, .srl, .sla, .sra, .jump, .jmpr, .bz, .bnz, .bn, .bnn, .bc, .bnc]

/-- The shape of each mnemonic (30_encoding.md rule R61; JMPR by decision D2, SUBI by decision D3). -/
def Mnemonic.shape : Mnemonic → Shape
  | .nop => .shapeNone
  | .halt => .shapeNone
  | .load => .shapeRI
  | .store => .shapeRI
  | .ldih => .shapeI
  | .add => .shapeR
  | .addi => .shapeI
  | .addc => .shapeR
  | .sub => .shapeR
  | .subi => .shapeI
  | .subc => .shapeR
  | .cmp => .shapeR
  | .and => .shapeR
  | .or => .shapeR
  | .xor => .shapeR
  | .sll => .shapeRI
  | .srl => .shapeRI
  | .sla => .shapeRI
  | .sra => .shapeRI
  | .jump => .shapeI
  | .jmpr => .shapeI
  | .bz => .shapeI
  | .bnz => .shapeI
  | .bn => .shapeI
  | .bnn => .shapeI
  | .bc => .shapeI
  | .bnc => .shapeI

/-- The opcode that OPCODE_MAP gives a mnemonic (30_encoding.md rule R66). -/
def OpcodeMap.code (map : OpcodeMap) : Mnemonic → Opcode
  | .nop => map.nop
  | .halt => map.halt
  | .load => map.load
  | .store => map.store
  | .ldih => map.ldih
  | .add => map.add
  | .addi => map.addi
  | .addc => map.addc
  | .sub => map.sub
  | .subi => map.subi
  | .subc => map.subc
  | .cmp => map.cmp
  | .and => map.and
  | .or => map.or
  | .xor => map.xor
  | .sll => map.sll
  | .srl => map.srl
  | .sla => map.sla
  | .sra => map.sra
  | .jump => map.jump
  | .jmpr => map.jmpr
  | .bz => map.bz
  | .bnz => map.bnz
  | .bn => map.bn
  | .bnn => map.bnn
  | .bc => map.bc
  | .bnc => map.bnc

/-- The default OPCODE_MAP, PRESUMED: the spec supplies it from general knowledge (30_encoding.md rule R66,
93_implementation_defined.md G1; log entry 1). Codes 19 to 23 are reserved under it. -/
def OpcodeMap.default : OpcodeMap where
  nop := 0
  halt := 1
  load := 2
  store := 3
  ldih := 16
  add := 8
  addi := 9
  addc := 17
  sub := 10
  subi := 11
  subc := 18
  cmp := 12
  and := 13
  or := 14
  xor := 15
  sll := 4
  srl := 6
  sla := 5
  sra := 7
  jump := 24
  jmpr := 25
  bz := 26
  bnz := 27
  bn := 28
  bnn := 29
  bc := 30
  bnc := 31

/-- The defaults of the parameters (00_scope.md rule R9): the default map, HALT leaves pc, and a register field of
8 to 15 faults (log entries 1, 2 and 3). -/
def Params.default : Params where
  opcodeMap := OpcodeMap.default
  haltAdvancesPc := false
  regfieldPolicy := .fault

/-- No two mnemonics share an opcode (30_encoding.md rule R67). -/
abbrev OpcodeMap.Injective (map : OpcodeMap) : Prop := (Mnemonic.all.map map.code).Nodup

/-- The mnemonic an opcode is assigned to, if any: OPCODE_MAP read backwards (30_encoding.md rule R69). -/
def OpcodeMap.mnemonicOf (map : OpcodeMap) (opc : Opcode) : Option Mnemonic :=
  Mnemonic.all.find? (fun m => map.code m == opc)

/-! ### Field extraction (30_encoding.md rules R58 and R59) -/

/-- `w[15:11]`. -/
def opcodeField (w : Word) : Opcode := w.extractLsb' 11 5

/-- `w[10:8]`. -/
def op1Field (w : Word) : Reg := w.extractLsb' 8 3

/-- `w[7:4]`. -/
def op2Field (w : Word) : Nibble := w.extractLsb' 4 4

/-- `w[3:0]`. -/
def op3Field (w : Word) : Nibble := w.extractLsb' 0 4

/-! ### The decoder -/

/-- The instruction of a mnemonic with the given fields; unused fields are dropped (30_encoding.md rules R61, R65). -/
def Instr.ofFields (m : Mnemonic) (op1 : Reg) (op2 op3 : Nibble) : Instr :=
  match m with
  | .nop => .nop
  | .halt => .halt
  | .load => .load op1 op2 op3
  | .store => .store op1 op2 op3
  | .ldih => .ldih op1 op2 op3
  | .add => .add op1 op2 op3
  | .addi => .addi op1 op2 op3
  | .addc => .addc op1 op2 op3
  | .sub => .sub op1 op2 op3
  | .subi => .subi op1 op2 op3
  | .subc => .subc op1 op2 op3
  | .cmp => .cmp op2 op3
  | .and => .and op1 op2 op3
  | .or => .or op1 op2 op3
  | .xor => .xor op1 op2 op3
  | .sll => .sll op1 op2 op3
  | .srl => .srl op1 op2 op3
  | .sla => .sla op1 op2 op3
  | .sra => .sra op1 op2 op3
  | .jump => .jump op2 op3
  | .jmpr => .jmpr op1 op2 op3
  | .bz => .bz op1 op2 op3
  | .bnz => .bnz op1 op2 op3
  | .bn => .bn op1 op2 op3
  | .bnn => .bnn op1 op2 op3
  | .bc => .bc op1 op2 op3
  | .bnc => .bnc op1 op2 op3

/-- Why a word is no instruction. -/
inductive DecodeError where
  /-- OPCODE_MAP assigns the word's opcode to no mnemonic (30_encoding.md rule R68). The step turns it into the fault
  UnknownOpcode. Safe: the spec reserves these opcodes. -/
  | unknownOpcode (opc : Opcode)
  deriving DecidableEq, Repr

/-- Decoding of one word (30_encoding.md rule R69), total on every word. The register-field check of rule R69
(`regfield`) is made by the instruction's meaning, before any read or write (log entry 8). -/
def decode (map : OpcodeMap) (w : Word) : Except DecodeError Instr :=
  match map.mnemonicOf (opcodeField w) with
  | none => .error (.unknownOpcode (opcodeField w))
  | some m => .ok (Instr.ofFields m (op1Field w) (op2Field w) (op3Field w))

/-- The instruction the decoder reads, under the default opcode map, from a one-word instruction whose low `nbits`
bits are `w` and whose other bits are 0. An instruction is exactly one 16-bit word (30_encoding.md rule R57), so a
longer one is none. -/
def decodeTableWord (nbits w : Nat) : Option Instr :=
  if nbits ≤ 16 then (decode OpcodeMap.default (BitVec.ofNat 16 (w % 2 ^ nbits))).toOption else none

/-! ### The encoder -/

/-- The mnemonic of an instruction. -/
def Instr.mnemonic : Instr → Mnemonic
  | .nop => .nop
  | .halt => .halt
  | .load _ _ _ => .load
  | .store _ _ _ => .store
  | .ldih _ _ _ => .ldih
  | .add _ _ _ => .add
  | .addi _ _ _ => .addi
  | .addc _ _ _ => .addc
  | .sub _ _ _ => .sub
  | .subi _ _ _ => .subi
  | .subc _ _ _ => .subc
  | .cmp _ _ => .cmp
  | .and _ _ _ => .and
  | .or _ _ _ => .or
  | .xor _ _ _ => .xor
  | .sll _ _ _ => .sll
  | .srl _ _ _ => .srl
  | .sla _ _ _ => .sla
  | .sra _ _ _ => .sra
  | .jump _ _ => .jump
  | .jmpr _ _ _ => .jmpr
  | .bz _ _ _ => .bz
  | .bnz _ _ _ => .bnz
  | .bn _ _ _ => .bn
  | .bnn _ _ _ => .bnn
  | .bc _ _ _ => .bc
  | .bnc _ _ _ => .bnc

/-- The op1 field of an instruction as the assembler writes it, 0 where unused (30_encoding.md rule R65). -/
def Instr.op1 : Instr → Reg
  | .nop => 0
  | .halt => 0
  | .load rA _ _ => rA
  | .store rA _ _ => rA
  | .ldih rA _ _ => rA
  | .add rA _ _ => rA
  | .addi rA _ _ => rA
  | .addc rA _ _ => rA
  | .sub rA _ _ => rA
  | .subi rA _ _ => rA
  | .subc rA _ _ => rA
  | .cmp _ _ => 0
  | .and rA _ _ => rA
  | .or rA _ _ => rA
  | .xor rA _ _ => rA
  | .sll rA _ _ => rA
  | .srl rA _ _ => rA
  | .sla rA _ _ => rA
  | .sra rA _ _ => rA
  | .jump _ _ => 0
  | .jmpr rA _ _ => rA
  | .bz rA _ _ => rA
  | .bnz rA _ _ => rA
  | .bn rA _ _ => rA
  | .bnn rA _ _ => rA
  | .bc rA _ _ => rA
  | .bnc rA _ _ => rA

/-- The op2 field of an instruction, 0 where unused. -/
def Instr.op2 : Instr → Nibble
  | .nop => 0
  | .halt => 0
  | .load _ rB _ => rB
  | .store _ rB _ => rB
  | .ldih _ immHi _ => immHi
  | .add _ rB _ => rB
  | .addi _ immHi _ => immHi
  | .addc _ rB _ => rB
  | .sub _ rB _ => rB
  | .subi _ immHi _ => immHi
  | .subc _ rB _ => rB
  | .cmp rB _ => rB
  | .and _ rB _ => rB
  | .or _ rB _ => rB
  | .xor _ rB _ => rB
  | .sll _ rB _ => rB
  | .srl _ rB _ => rB
  | .sla _ rB _ => rB
  | .sra _ rB _ => rB
  | .jump immHi _ => immHi
  | .jmpr _ immHi _ => immHi
  | .bz _ immHi _ => immHi
  | .bnz _ immHi _ => immHi
  | .bn _ immHi _ => immHi
  | .bnn _ immHi _ => immHi
  | .bc _ immHi _ => immHi
  | .bnc _ immHi _ => immHi

/-- The op3 field of an instruction, 0 where unused. -/
def Instr.op3 : Instr → Nibble
  | .nop => 0
  | .halt => 0
  | .load _ _ imm4 => imm4
  | .store _ _ imm4 => imm4
  | .ldih _ _ immLo => immLo
  | .add _ _ rC => rC
  | .addi _ _ immLo => immLo
  | .addc _ _ rC => rC
  | .sub _ _ rC => rC
  | .subi _ _ immLo => immLo
  | .subc _ _ rC => rC
  | .cmp _ rC => rC
  | .and _ _ rC => rC
  | .or _ _ rC => rC
  | .xor _ _ rC => rC
  | .sll _ _ imm4 => imm4
  | .srl _ _ imm4 => imm4
  | .sla _ _ imm4 => imm4
  | .sra _ _ imm4 => imm4
  | .jump _ immLo => immLo
  | .jmpr _ _ immLo => immLo
  | .bz _ _ immLo => immLo
  | .bnz _ _ immLo => immLo
  | .bn _ _ immLo => immLo
  | .bnn _ _ immLo => immLo
  | .bc _ _ immLo => immLo
  | .bnc _ _ immLo => immLo

/-- The word with the given opcode and fields (30_encoding.md rule R76). -/
def packFields (opc : Opcode) (op1 : Reg) (op2 op3 : Nibble) : Word :=
  (opc.setWidth 16 <<< 11) ||| (op1.setWidth 16 <<< 8) ||| (op2.setWidth 16 <<< 4) ||| op3.setWidth 16

/-- The word of an instruction, unused fields 0 (30_encoding.md rules R65 and R76). -/
def encode (map : OpcodeMap) (i : Instr) : Word :=
  packFields (map.code i.mnemonic) i.op1 i.op2 i.op3

end Sys2Proof
end

