-- ==== Sys2Proof/Machine/State.lean ====
section
/-! DEFINITION. The state of the core as plain data (10_state.md), the reasons a run ends, and the state after reset. -/

namespace Sys2Proof.Machine

/-- A memory: the list of its non-zero cells as (address, word) pairs. The addressable unit is the 16-bit word; the
hardware has no bytes (20_memory.md rule R41; log entry 6). Its canonical form is `Memory.wf` in Machine/Ops.lean. -/
abbrev Memory := List (Nat × Word)

/-- The reason of a fault (60_exceptions.md rule R151). -/
inductive FaultReason where
  /-- pc of 256 or more at fetch, or an effective address of 256 or more in LOAD or STORE
  (20_memory.md rules R44 to R46). -/
  | addressOutOfRange
  /-- The fetched word's opcode is assigned to no mnemonic (30_encoding.md rule R68). -/
  | unknownOpcode
  /-- A register-typed field of 8 to 15 under `RegfieldPolicy.fault` (30_encoding.md rule R63). -/
  | illegalRegisterIndex
  deriving DecidableEq, Repr

/-- The run status (10_state.md rule R29). -/
inductive RunStatus where
  | running
  | halted
  | faulted (reason : FaultReason)
  deriving DecidableEq, Repr

/-- The complete state of the core (10_state.md, its opening tuple), and the model's own field `params`. -/
structure State where
  /-- gr0 to gr7 (10_state.md rule R20). -/
  regs : Vector Word 8
  /-- The program counter, a word index into instruction memory (10_state.md rule R22). -/
  pc : Word
  /-- NF, the negative flag (10_state.md rule R25). -/
  nf : Bool
  /-- ZF, the zero flag (10_state.md rule R25). -/
  zf : Bool
  /-- CF, the carry and borrow flag (10_state.md rule R25). -/
  cf : Bool
  /-- Instruction memory (10_state.md rule R30). -/
  imem : Memory
  /-- Data memory (10_state.md rule R30). -/
  dmem : Memory
  /-- The run status (10_state.md rule R29). -/
  status : RunStatus
  /-- The MODEL's own field: the parameters of 00_scope.md rule R9, which no step changes. DESIGN CHOICE
  (log entry 5): they stand here so that every claim about a state holds for every value of them. -/
  params : Params
  deriving DecidableEq, Repr

/-- Why no step is enabled: the run is over (40_fetch_execute.md rule R92). -/
inductive Fault where
  /-- Raised by `step` alone, in a state whose status is Halted. Safe: the spec enables no step there. -/
  | runHalted
  /-- Raised by `step` alone, in a state whose status is Faulted(reason). Safe: the spec enables no step there. The step
  that takes the fault is an ordinary next state. -/
  | runFaulted (reason : FaultReason)
  deriving DecidableEq, Repr

/-- Why the model gives a step no meaning. -/
inductive Refusal where
  /-- Raised by `exec` for an instruction without a meaning; no instruction of this model is left without one.
  Safe: nothing is claimed of such a step. -/
  | notModelled (mnemonic : String)
  deriving DecidableEq, Repr

/-- What a step or a meaning answers. -/
abbrev Result := Host.Outcome State Fault Refusal

/-- A newly created state: everything zero, pc 0, Running (70_reset_and_hazards.md rules R170 and R171 (1)). -/
def State.create (p : Params) : State where
  regs := Vector.replicate 8 0
  pc := 0
  nf := false
  zf := false
  cf := false
  imem := []
  dmem := []
  status := .running
  params := p

/-- The machine right after reset, before a program image is loaded (10_state.md rule R33), with the spec's default
parameters (00_scope.md rule R9). -/
def State.reset : State := State.create Params.default

end Sys2Proof.Machine
end

