-- ==== Sys2Proof/Machine/Ops.lean ====
section
/-! DEFINITION. The named operations over registers, the program counter and the two memories, taking a fault,
and halting. -/

namespace Sys2Proof.Machine

/-! ### Memories as data -/

/-- What a cell that nothing has written reads as (10_state.md rule R33, 93_implementation_defined.md U21). -/
def Memory.unwritten : Word := 0

/-- The content of the cell at address `a`. -/
def Memory.read : Memory → Nat → Word
  | [], _ => Memory.unwritten
  | (k, v) :: rest, a => if a = k then v else Memory.read rest a

/-- The memory with `v` in the cell at address `a`; writing what an unlisted cell reads as removes the entry. -/
def Memory.write : Memory → Nat → Word → Memory
  | [], a, v => if v = Memory.unwritten then [] else [(a, v)]
  | (k, u) :: rest, a, v =>
    if a < k then
      if v = Memory.unwritten then (k, u) :: rest else (a, v) :: (k, u) :: rest
    else if a = k then
      if v = Memory.unwritten then rest else (a, v) :: rest
    else (k, u) :: Memory.write rest a v

/-- Consecutive writes from address `a` upward (70_reset_and_hazards.md rule R172). -/
def Memory.writeSeq : Memory → Nat → List Word → Memory
  | m, _, [] => m
  | m, a, w :: ws => Memory.writeSeq (Memory.write m a w) (a + 1) ws

/-- The entries rise strictly from `lo`, lie below 256, and none holds what an unlisted cell reads as. -/
def Memory.wfFrom : Nat → Memory → Bool
  | _, [] => true
  | lo, (k, v) :: rest =>
    decide (lo ≤ k) && decide (k < 256) && decide (v ≠ Memory.unwritten) && Memory.wfFrom (k + 1) rest

/-- The canonical form of a memory of 256 cells (10_state.md rule R30): equal memories are equal data. -/
def Memory.wf (m : Memory) : Bool := Memory.wfFrom 0 m

/-! ### Registers and the program counter -/

/-- `x[r]` (00_scope.md rule R12). -/
def State.readReg (s : State) (r : Reg) : Word := s.regs[r.toNat]'r.isLt

/-- `x[r] <- v` (00_scope.md rule R12); no register is hard-wired (10_state.md rule R20). -/
def State.writeReg (s : State) (r : Reg) (v : Word) : State :=
  { s with regs := s.regs.set r.toNat v r.isLt }

/-- `nextpc`, which wraps at 16 bits (40_fetch_execute.md rule R96). -/
def State.nextPc (s : State) : Word := s.pc + 1

/-- `pc <- target` (00_scope.md rule R12). -/
def State.setPc (s : State) (target : Word) : State := { s with pc := target }

/-- `pc <- nextpc` (40_fetch_execute.md rule R96). -/
def State.advance (s : State) : State := s.setPc s.nextPc

/-! ### Memory access, the only accesses of the core (20_memory.md rule R43) -/

/-- `IMemRead(a)` (20_memory.md rule R46). -/
def State.imemRead (s : State) (a : Word) : Except FaultReason Word :=
  if imemWords ≤ a.toNat then .error .addressOutOfRange else .ok (s.imem.read a.toNat)

/-- `MemRead(a, 1)` (20_memory.md rule R44). -/
def State.memRead (s : State) (a : Word) : Except FaultReason Word :=
  if dmemWords ≤ a.toNat then .error .addressOutOfRange else .ok (s.dmem.read a.toNat)

/-- `MemWrite(a, 1, v)` (20_memory.md rule R45). -/
def State.memWrite (s : State) (a v : Word) : Except FaultReason State :=
  if dmemWords ≤ a.toNat then .error .addressOutOfRange
  else .ok { s with dmem := s.dmem.write a.toNat v }

/-! ### The ends of a run -/

/-- `raise Fault(reason)`, taking a fault: the status becomes Faulted(reason) and nothing else changes
(40_fetch_execute.md rule R94, 60_exceptions.md rule R152). There is no handler, saved state or return
(60_exceptions.md rules R155 and R156). -/
def State.raise (s : State) (reason : FaultReason) : State := { s with status := .faulted reason }

/-- `halt`: the status becomes Halted (41_system.md rule R111). -/
def State.halt (s : State) : State := { s with status := .halted }

/-- The end of an instruction that began in `s`: all its writes, or, where it raised, the fault and none of them
(00_scope.md rule R13, 40_fetch_execute.md rule R95). -/
def complete (s : State) : Except FaultReason State → Result
  | .ok t => .next t
  | .error reason => .next (s.raise reason)

end Sys2Proof.Machine
end

