-- ==== Sys2Proof/Machine/Flags.lean ====
section
/-! DEFINITION. The flag functions (40_fetch_execute.md rule R105), the writes of each flag group
(10_state.md rule R25) and the branch conditions (10_state.md rule R26). -/

namespace Sys2Proof.Machine

/-- `zf(r)`: the result is zero (40_fetch_execute.md rule R105). -/
def zeroFlag (r : Word) : Bool := r == 0

/-- `nf(r)`: bit 15 of the result (40_fetch_execute.md rule R105). -/
def negFlag (r : Word) : Bool := r.msb

/-- The write of CMP: NF and ZF from a result, CF kept (10_state.md rule R25). -/
def State.setNegZero (s : State) (r : Word) : State := { s with nf := negFlag r, zf := zeroFlag r }

/-- The write of ADDC and SUBC: CF, with NF and ZF kept (10_state.md rule R25). -/
def State.setCarry (s : State) (c : Bool) : State := { s with cf := c }

end Sys2Proof.Machine
end

