-- ==== Sys2Proof/Machine/Operands.lean ====
section
/-! DEFINITION. Operand forms: register-typed fields, immediates, the effective address and register-relative targets. -/

namespace Sys2Proof.Machine

/-- `regfield(f)`: the register a register-typed 4-bit field names, or the fault IllegalRegisterIndex
(30_encoding.md rule R63). -/
def regfield (policy : RegfieldPolicy) (f : Nibble) : Except FaultReason Reg :=
  if 8 ≤ f.toNat then
    match policy with
    | .fault => .error .illegalRegisterIndex
    | .low3 => .ok (f.setWidth 3)
  else .ok (f.setWidth 3)

/-- imm4 as a word, zero-extended (30_encoding.md rule R64). -/
def imm4Word (op3 : Nibble) : Word := op3.setWidth 16

/-- imm8 as a word, zero-extended: `(op2 << 4) | op3` (30_encoding.md rule R64). -/
def imm8Word (op2 op3 : Nibble) : Word := (op2.setWidth 16 <<< 4) ||| op3.setWidth 16

/-- immH: `((op2 << 12) | (op3 << 8)) & 0xFF00` (30_encoding.md rule R64). -/
def immHWord (op2 op3 : Nibble) : Word :=
  ((op2.setWidth 16 <<< 12) ||| (op3.setWidth 16 <<< 8)) &&& 0xFF00

/-- The effective address of LOAD and STORE: base plus imm4 modulo 2^16 (42_load_store.md rule R115, decision D21). -/
def effectiveAddress (base : Word) (op3 : Nibble) : Word := base + imm4Word op3

/-- The target of JMPR and of a taken branch: base plus imm8 modulo 2^16 (45_control_transfer.md rules R141 and R142). -/
def branchTarget (base : Word) (op2 op3 : Nibble) : Word := base + imm8Word op2 op3

end Sys2Proof.Machine
end

