-- ==== Sys2Proof/Machine/Patterns.lean ====
section
/-! DEFINITION. The forms that several instruction rules share. Each reads the state before the instruction and commits
all its writes together (00_scope.md rule R13). -/

namespace Sys2Proof.Machine

/-- Shape R, `x[op1] <- f(x[B], x[C])`, no flag written (43_arithmetic.md rules R121 and R124, 44_logic_shift.md rules
R130 to R132). -/
def opRegReg (f : Word → Word → Word) (rA : Reg) (op2 op3 : Nibble) (s : State) : Result :=
  complete s do
    let b ← regfield s.params.regfieldPolicy op2
    let c ← regfield s.params.regfieldPolicy op3
    return (s.writeReg rA (f (s.readReg b) (s.readReg c))).advance

/-- Shape R with CF in and out, `(x[op1], CF) <- f(x[B], x[C], CF)` (43_arithmetic.md rules R123 and R126). -/
def opRegRegCarry (f : Word → Word → Bool → Word × Bool) (rA : Reg) (op2 op3 : Nibble) (s : State) : Result :=
  complete s do
    let b ← regfield s.params.regfieldPolicy op2
    let c ← regfield s.params.regfieldPolicy op3
    let (r, carry) := f (s.readReg b) (s.readReg c) s.cf
    return ((s.writeReg rA r).setCarry carry).advance

/-- Shape I, `x[op1] <- f(x[op1], imm)`, no flag written (43_arithmetic.md rules R120, R122 and R125). -/
def opRegImm (f : Word → Word → Word) (rA : Reg) (imm : Word) (s : State) : Result :=
  .next (s.writeReg rA (f (s.readReg rA) imm)).advance

/-- Shape RI shift, `x[op1] <- f(x[B], imm4)`, no flag written (44_logic_shift.md rules R133 to R136). -/
def opShift (f : Word → Nibble → Word) (rA : Reg) (op2 op3 : Nibble) (s : State) : Result :=
  complete s do
    let b ← regfield s.params.regfieldPolicy op2
    return (s.writeReg rA (f (s.readReg b) op3)).advance

/-- The common form of the conditional branches (45_control_transfer.md rule R142). The target is not checked here
(rule R149). -/
def opBranch (cond : Bool) (rA : Reg) (op2 op3 : Nibble) (s : State) : Result :=
  .next (if cond then s.setPc (branchTarget (s.readReg rA) op2 op3) else s.advance)

end Sys2Proof.Machine
end

