-- ==== Sys2Proof/Machine/Arithmetic.lean ====
section
/-! DEFINITION. Arithmetic and compare (43_arithmetic.md). -/

namespace Sys2Proof.Machine

/-- LDIH rA, imm_hi, imm_lo (43_arithmetic.md rule R120): it adds, it does not replace (conflict C7). -/
def execLdih (rA : Reg) (op2 op3 : Nibble) (s : State) : Result := opRegImm add16 rA (immHWord op2 op3) s

/-- ADD rA, rB, rC (43_arithmetic.md rule R121). -/
def execAdd (rA : Reg) (op2 op3 : Nibble) (s : State) : Result := opRegReg add16 rA op2 op3 s

/-- ADDI rA, imm_hi, imm_lo (43_arithmetic.md rule R122). -/
def execAddi (rA : Reg) (op2 op3 : Nibble) (s : State) : Result := opRegImm add16 rA (imm8Word op2 op3) s

/-- ADDC rA, rB, rC (43_arithmetic.md rule R123). -/
def execAddc (rA : Reg) (op2 op3 : Nibble) (s : State) : Result := opRegRegCarry addc rA op2 op3 s

/-- SUB rA, rB, rC (43_arithmetic.md rule R124). -/
def execSub (rA : Reg) (op2 op3 : Nibble) (s : State) : Result := opRegReg sub16 rA op2 op3 s

/-- SUBI rA, imm_hi, imm_lo (43_arithmetic.md rule R125, decision D3, conflict C1). -/
def execSubi (rA : Reg) (op2 op3 : Nibble) (s : State) : Result := opRegImm sub16 rA (imm8Word op2 op3) s

/-- SUBC rA, rB, rC (43_arithmetic.md rule R126): CF is the borrow. -/
def execSubc (rA : Reg) (op2 op3 : Nibble) (s : State) : Result := opRegRegCarry subc rA op2 op3 s

/-- CMP rB, rC (43_arithmetic.md rule R127): the result is discarded, only NF and ZF are written. -/
def execCmp (op2 op3 : Nibble) (s : State) : Result :=
  complete s do
    let b ← regfield s.params.regfieldPolicy op2
    let c ← regfield s.params.regfieldPolicy op3
    return (s.setNegZero (sub16 (s.readReg b) (s.readReg c))).advance

end Sys2Proof.Machine
end

