-- ==== Sys2Proof/Machine/ControlTransfer.lean ====
section
/-! DEFINITION. Control transfer (45_control_transfer.md). Every target is absolute and none is checked here (rule R149). -/

namespace Sys2Proof.Machine

/-- JUMP imm_hi, imm_lo (45_control_transfer.md rule R140). -/
def execJump (op2 op3 : Nibble) (s : State) : Result := .next (s.setPc (imm8Word op2 op3))

/-- JMPR rA, imm (45_control_transfer.md rule R141, decision D2). -/
def execJmpr (rA : Reg) (op2 op3 : Nibble) (s : State) : Result := opBranch true rA op2 op3 s

/-- BZ rA, imm: taken if ZF = 1 (45_control_transfer.md rule R142). -/
def execBz (rA : Reg) (op2 op3 : Nibble) (s : State) : Result := opBranch s.zf rA op2 op3 s

/-- BNZ rA, imm: taken if ZF = 0 (45_control_transfer.md rule R143). -/
def execBnz (rA : Reg) (op2 op3 : Nibble) (s : State) : Result := opBranch (!s.zf) rA op2 op3 s

/-- BN rA, imm: taken if NF = 1 (45_control_transfer.md rule R144). -/
def execBn (rA : Reg) (op2 op3 : Nibble) (s : State) : Result := opBranch s.nf rA op2 op3 s

/-- BNN rA, imm: taken if NF = 0 (45_control_transfer.md rule R145). -/
def execBnn (rA : Reg) (op2 op3 : Nibble) (s : State) : Result := opBranch (!s.nf) rA op2 op3 s

/-- BC rA, imm: taken if CF = 1 (45_control_transfer.md rule R146). -/
def execBc (rA : Reg) (op2 op3 : Nibble) (s : State) : Result := opBranch s.cf rA op2 op3 s

/-- BNC rA, imm: taken if CF = 0 (45_control_transfer.md rule R147). -/
def execBnc (rA : Reg) (op2 op3 : Nibble) (s : State) : Result := opBranch (!s.cf) rA op2 op3 s

end Sys2Proof.Machine
end

