-- ==== Sys2Proof/Machine/LoadStore.lean ====
section
/-! DEFINITION. LOAD and STORE (42_load_store.md). -/

namespace Sys2Proof.Machine

/-- LOAD rA, rB, imm (42_load_store.md rule R115). -/
def execLoad (rA : Reg) (op2 op3 : Nibble) (s : State) : Result :=
  complete s do
    let b ← regfield s.params.regfieldPolicy op2
    let v ← s.memRead (effectiveAddress (s.readReg b) op3)
    return (s.writeReg rA v).advance

/-- STORE rA, rB, imm (42_load_store.md rule R116). -/
def execStore (rA : Reg) (op2 op3 : Nibble) (s : State) : Result :=
  complete s do
    let b ← regfield s.params.regfieldPolicy op2
    let t ← s.memWrite (effectiveAddress (s.readReg b) op3) (s.readReg rA)
    return t.advance

end Sys2Proof.Machine
end

