-- ==== Sys2Proof/Machine/LogicShift.lean ====
section
/-! DEFINITION. Logic and shift (44_logic_shift.md). -/

namespace Sys2Proof.Machine

/-- AND rA, rB, rC (44_logic_shift.md rule R130). -/
def execAnd (rA : Reg) (op2 op3 : Nibble) (s : State) : Result := opRegReg and16 rA op2 op3 s

/-- OR rA, rB, rC (44_logic_shift.md rule R131). -/
def execOr (rA : Reg) (op2 op3 : Nibble) (s : State) : Result := opRegReg or16 rA op2 op3 s

/-- XOR rA, rB, rC (44_logic_shift.md rule R132). -/
def execXor (rA : Reg) (op2 op3 : Nibble) (s : State) : Result := opRegReg xor16 rA op2 op3 s

/-- SLL rA, rB, imm (44_logic_shift.md rule R133). -/
def execSll (rA : Reg) (op2 op3 : Nibble) (s : State) : Result := opShift shl16 rA op2 op3 s

/-- SRL rA, rB, imm (44_logic_shift.md rule R134). -/
def execSrl (rA : Reg) (op2 op3 : Nibble) (s : State) : Result := opShift shr16 rA op2 op3 s

/-- SLA rA, rB, imm, the same bit pattern as SLL (44_logic_shift.md rule R135). -/
def execSla (rA : Reg) (op2 op3 : Nibble) (s : State) : Result := opShift shl16 rA op2 op3 s

/-- SRA rA, rB, imm (44_logic_shift.md rule R136). -/
def execSra (rA : Reg) (op2 op3 : Nibble) (s : State) : Result := opShift sra16 rA op2 op3 s

end Sys2Proof.Machine
end

