-- ==== Sys2Proof/Machine/System.lean ====
section
/-! DEFINITION. The system instructions NOP and HALT (41_system.md). -/

namespace Sys2Proof.Machine

/-- NOP (41_system.md rule R110). -/
def execNop (s : State) : Result := .next s.advance

/-- HALT (41_system.md rule R111); whether pc advances is HALT_ADVANCES_PC (log entry 2). -/
def execHalt (s : State) : Result :=
  .next (if s.params.haltAdvancesPc then s.halt.advance else s.halt)

end Sys2Proof.Machine
end

