-- ==== Sys2Proof/Machine/Dispatch.lean ====
section
/-! DEFINITION. Dispatch: one arm per instruction (40_fetch_execute.md rule R94). -/

namespace Sys2Proof.Machine

def exec (i : Instr) (s : State) : Host.Outcome State Fault Refusal :=
  match i with
  | .nop => Sys2Proof.Machine.execNop s
  | .halt => Sys2Proof.Machine.execHalt s
  | .load rA rB imm4 => Sys2Proof.Machine.execLoad rA rB imm4 s
  | .store rA rB imm4 => Sys2Proof.Machine.execStore rA rB imm4 s
  | .ldih rA immHi immLo => Sys2Proof.Machine.execLdih rA immHi immLo s
  | .add rA rB rC => Sys2Proof.Machine.execAdd rA rB rC s
  | .addi rA immHi immLo => Sys2Proof.Machine.execAddi rA immHi immLo s
  | .addc rA rB rC => Sys2Proof.Machine.execAddc rA rB rC s
  | .sub rA rB rC => Sys2Proof.Machine.execSub rA rB rC s
  | .subi rA immHi immLo => Sys2Proof.Machine.execSubi rA immHi immLo s
  | .subc rA rB rC => Sys2Proof.Machine.execSubc rA rB rC s
  | .cmp rB rC => Sys2Proof.Machine.execCmp rB rC s
  | .and rA rB rC => Sys2Proof.Machine.execAnd rA rB rC s
  | .or rA rB rC => Sys2Proof.Machine.execOr rA rB rC s
  | .xor rA rB rC => Sys2Proof.Machine.execXor rA rB rC s
  | .sll rA rB imm4 => Sys2Proof.Machine.execSll rA rB imm4 s
  | .srl rA rB imm4 => Sys2Proof.Machine.execSrl rA rB imm4 s
  | .sla rA rB imm4 => Sys2Proof.Machine.execSla rA rB imm4 s
  | .sra rA rB imm4 => Sys2Proof.Machine.execSra rA rB imm4 s
  | .jump immHi immLo => Sys2Proof.Machine.execJump immHi immLo s
  | .jmpr rA immHi immLo => Sys2Proof.Machine.execJmpr rA immHi immLo s
  | .bz rA immHi immLo => Sys2Proof.Machine.execBz rA immHi immLo s
  | .bnz rA immHi immLo => Sys2Proof.Machine.execBnz rA immHi immLo s
  | .bn rA immHi immLo => Sys2Proof.Machine.execBn rA immHi immLo s
  | .bnn rA immHi immLo => Sys2Proof.Machine.execBnn rA immHi immLo s
  | .bc rA immHi immLo => Sys2Proof.Machine.execBc rA immHi immLo s
  | .bnc rA immHi immLo => Sys2Proof.Machine.execBnc rA immHi immLo s

end Sys2Proof.Machine
end

