-- ==== Sys2Proof/Machine/Fetch.lean ====
section
/-! DEFINITION. Fetch and decode of one step, and placing an instruction where the next step fetches it. -/

namespace Sys2Proof.Machine

/-- Fetch and decode (40_fetch_execute.md rule R93): the instruction at pc, or the fault these stages raise. -/
def State.fetchDecode (s : State) : Except FaultReason Instr :=
  match s.imemRead s.pc with
  | .error reason => .error reason
  | .ok w =>
    match decode s.params.opcodeMap w with
    | .error (.unknownOpcode _) => .error .unknownOpcode
    | .ok i => .ok i

/-- Fetch, decode and execute, in a state whose status is Running (40_fetch_execute.md rule R93). -/
def State.fetchExecute (s : State) : Result :=
  match s.fetchDecode with
  | .error reason => .next (s.raise reason)
  | .ok i => exec i s

/-- Where `State.withFetchWord` places an instruction: at pc, or at the reset vector where pc is outside instruction
memory (log entry 14). -/
def State.fetchSlot (s : State) : Word := if s.pc.toNat < imemWords then s.pc else 0

/-- The state with the one-word instruction `w` (its low `nbits` bits, the rest 0) stored where the next step fetches,
and with that fetch enabled: Running, pc at the word (log entry 14). -/
def State.placeInstr (s : State) (nbits w : Nat) : State :=
  { s with
    status := .running
    pc := s.fetchSlot
    imem := s.imem.write s.fetchSlot.toNat (BitVec.ofNat 16 (w % 2 ^ nbits)) }

end Sys2Proof.Machine
end

