-- ==== Sys2Proof/Machine/Step.lean ====
section
/-! DEFINITION. The step (40_fetch_execute.md rules R92 and R93). -/

namespace Sys2Proof.Machine

/-- One step. It is enabled only in Running; Halted and Faulted are terminal (40_fetch_execute.md rule R92). -/
def step (s : State) : Host.Outcome State Fault Refusal :=
  match s.status with
  | .running => s.fetchExecute
  | .halted => .fault .runHalted
  | .faulted reason => .fault (.runFaulted reason)

/-- The state with an instruction placed where `step` fetches its next instruction. -/
def State.withFetchWord (s : State) (nbits w : Nat) : State := s.placeInstr nbits w

end Sys2Proof.Machine
end

