-- ==== Sys2Proof/Machine/Assembler.lean ====
section
/-! DEFINITION. The assembler and disassembler (30_encoding.md rules R70 to R78): the toolchain contract, outside the
core. Text is a list of characters, one list per line. -/

namespace Sys2Proof.Machine

/-- Why a line is refused (30_encoding.md rule R75). -/
inductive AsmError where
  /-- The mnemonic is not in the instruction table (30_encoding.md rule R71). -/
  | unknownMnemonic
  /-- Another number of operands, or a token of an immediate position that is no decimal integer (30_encoding.md rule R73). -/
  | malformedLine
  /-- A token of a register position that is not gr0 to gr7 (30_encoding.md rule R72). -/
  | unresolvedRegister
  deriving DecidableEq, Repr

/-- A typed error naming the offending line by its number, from 1 (30_encoding.md rule R75). -/
structure AsmFailure where
  line : Nat
  error : AsmError
  deriving DecidableEq, Repr

/-! ### Text -/

/-- The spelling of a mnemonic (30_encoding.md rule R71). -/
def mnemonicText : Mnemonic → List Char
  | .nop => ['N', 'O', 'P']
  | .halt => ['H', 'A', 'L', 'T']
  | .load => ['L', 'O', 'A', 'D']
  | .store => ['S', 'T', 'O', 'R', 'E']
  | .ldih => ['L', 'D', 'I', 'H']
  | .add => ['A', 'D', 'D']
  | .addi => ['A', 'D', 'D', 'I']
  | .addc => ['A', 'D', 'D', 'C']
  | .sub => ['S', 'U', 'B']
  | .subi => ['S', 'U', 'B', 'I']
  | .subc => ['S', 'U', 'B', 'C']
  | .cmp => ['C', 'M', 'P']
  | .and => ['A', 'N', 'D']
  | .or => ['O', 'R']
  | .xor => ['X', 'O', 'R']
  | .sll => ['S', 'L', 'L']
  | .srl => ['S', 'R', 'L']
  | .sla => ['S', 'L', 'A']
  | .sra => ['S', 'R', 'A']
  | .jump => ['J', 'U', 'M', 'P']
  | .jmpr => ['J', 'M', 'P', 'R']
  | .bz => ['B', 'Z']
  | .bnz => ['B', 'N', 'Z']
  | .bn => ['B', 'N']
  | .bnn => ['B', 'N', 'N']
  | .bc => ['B', 'C']
  | .bnc => ['B', 'N', 'C']

/-- The mnemonic a token spells, if any (30_encoding.md rule R71). -/
def mnemonicOfText (t : List Char) : Option Mnemonic := Mnemonic.all.find? (fun m => mnemonicText m == t)

/-- White space within a line (log entry 16). -/
def isBlank (c : Char) : Bool := c == ' ' || c == '\t' || c == '\r'

/-- The text without leading and trailing white space. -/
def trimText (t : List Char) : List Char := ((t.dropWhile isBlank).reverse.dropWhile isBlank).reverse

/-- The pieces of a text between its commas; a text without commas is one piece. DESIGN CHOICE: an empty piece, before,
between or after commas, is a piece too and so counts as an operand token (log entry 16). -/
def splitCommas : List Char → List (List Char)
  | [] => [[]]
  | c :: cs =>
    if c = ',' then [] :: splitCommas cs
    else
      match splitCommas cs with
      | [] => [[c]]
      | piece :: pieces => (c :: piece) :: pieces

/-- The operand tokens after a mnemonic: comma-separated, white space around commas tolerated
(30_encoding.md rule R70). -/
def operandTokens (t : List Char) : List (List Char) :=
  match trimText t with
  | [] => []
  | c :: cs => (splitCommas (c :: cs)).map trimText

/-! ### Tokens -/

/-- The register a name resolves to, through the fixed table gr0 to gr7 (30_encoding.md rule R72). -/
def regOfText : List Char → Option Reg
  | ['g', 'r', '0'] => some 0
  | ['g', 'r', '1'] => some 1
  | ['g', 'r', '2'] => some 2
  | ['g', 'r', '3'] => some 3
  | ['g', 'r', '4'] => some 4
  | ['g', 'r', '5'] => some 5
  | ['g', 'r', '6'] => some 6
  | ['g', 'r', '7'] => some 7
  | _ => none

/-- The value of a decimal digit. -/
def digitValue (c : Char) : Option Nat := if '0' ≤ c ∧ c ≤ '9' then some (c.toNat - 48) else none

/-- The value of a sequence of decimal digits read after the value `acc`; none if a character is no digit. -/
def digitsValue (acc : Nat) : List Char → Option Nat
  | [] => some acc
  | c :: cs => (digitValue c).bind fun d => digitsValue (10 * acc + d) cs

/-- The value of a non-empty sequence of decimal digits. -/
def naturalOfText : List Char → Option Nat
  | [] => none
  | c :: cs => digitsValue 0 (c :: cs)

/-- The value of a decimal integer with an optional sign (30_encoding.md rule R74). -/
def integerOfText : List Char → Option Int
  | '-' :: t => (naturalOfText t).map fun n => -(n : Int)
  | '+' :: t => (naturalOfText t).map fun n => (n : Int)
  | t => (naturalOfText t).map fun n => (n : Int)

/-- A token in a register position of any line, the three-operand JUMP too (30_encoding.md rule R72; log entry 16). -/
def regToken (t : List Char) : Except AsmError Reg :=
  match regOfText t with
  | some r => .ok r
  | none => .error .unresolvedRegister

/-- A token in an immediate position, masked to 4 bits (30_encoding.md rule R74). -/
def immToken (t : List Char) : Except AsmError Nibble :=
  match integerOfText t with
  | some v => .ok (BitVec.ofInt 4 v)
  | none => .error .malformedLine

/-! ### Lines -/

/-- The fields op1, op2 and op3 that the operands write, by shape, with the two extra forms of CMP and JUMP
(30_encoding.md rule R73). Tokens are resolved from left to right (log entry 16). -/
def operandFields (m : Mnemonic) (tokens : List (List Char)) : Except AsmError (Reg × Nibble × Nibble) :=
  match m.shape, tokens with
  | .shapeNone, [] => .ok (0, 0, 0)
  | .shapeR, [a, b, c] => do
    let rA ← regToken a
    let rB ← regToken b
    let rC ← regToken c
    return (rA, rB.setWidth 4, rC.setWidth 4)
  | .shapeR, [b, c] =>
    if m = .cmp then do
      let rB ← regToken b
      let rC ← regToken c
      return (0, rB.setWidth 4, rC.setWidth 4)
    else .error .malformedLine
  | .shapeI, [a, hi, lo] => do
    let rA ← regToken a
    let immHi ← immToken hi
    let immLo ← immToken lo
    return (rA, immHi, immLo)
  | .shapeI, [hi, lo] =>
    if m = .jump then do
      let immHi ← immToken hi
      let immLo ← immToken lo
      return (0, immHi, immLo)
    else .error .malformedLine
  | .shapeRI, [a, b, imm] => do
    let rA ← regToken a
    let rB ← regToken b
    let imm4 ← immToken imm
    return (rA, rB.setWidth 4, imm4)
  | _, _ => .error .malformedLine

/-- The word of one line; none for a line that is empty or only white space (30_encoding.md rules R71 and R76). DESIGN
CHOICE: white space before the mnemonic and after the last operand is accepted (log entry 16). -/
def assembleLine (map : OpcodeMap) (line : List Char) : Except AsmError (Option Word) :=
  let t := trimText line
  if t = [] then .ok none
  else
    match mnemonicOfText (t.takeWhile (fun c => !isBlank c)) with
    | none => .error .unknownMnemonic
    | some m =>
      match operandFields m (operandTokens (t.dropWhile (fun c => !isBlank c))) with
      | .error e => .error e
      | .ok (op1, op2, op3) => .ok (some (packFields (map.code m) op1 op2 op3))

/-- Assembly of the lines from number `n` on; it stops at the first error (30_encoding.md rules R70 and R75). -/
def assembleFrom (map : OpcodeMap) : Nat → List (List Char) → Except AsmFailure (List Word)
  | _, [] => .ok []
  | n, line :: rest =>
    match assembleLine map line with
    | .error e => .error { line := n, error := e }
    | .ok none => assembleFrom map (n + 1) rest
    | .ok (some w) => (assembleFrom map (n + 1) rest).map (w :: ·)

/-- Assembly of a program, one instruction per line (30_encoding.md rule R70). -/
def assemble (map : OpcodeMap) (lines : List (List Char)) : Except AsmFailure (List Word) := assembleFrom map 1 lines

/-! ### The disassembler (30_encoding.md rule R77) -/

/-- The character of a decimal digit. -/
def digitChar (n : Nat) : Char := Char.ofNat (48 + n)

/-- `gr` and the index. -/
def regText (r : Reg) : List Char := ['g', 'r', digitChar r.toNat]

/-- A register-typed field: its low three bits name the register. -/
def regFieldText (f : Nibble) : List Char := regText (f.setWidth 3)

/-- An immediate field in unsigned decimal, 0 to 15. -/
def immText (f : Nibble) : List Char :=
  if f.toNat < 10 then [digitChar f.toNat] else ['1', digitChar (f.toNat - 10)]

/-- Operands separated by a comma and a space. -/
def joinOperands : List (List Char) → List Char
  | [] => []
  | [t] => t
  | t :: ts => t ++ [',', ' '] ++ joinOperands ts

/-- The operands the disassembler prints: CMP omits op1, and so does JUMP (30_encoding.md rule R77). -/
def operandTexts (m : Mnemonic) (op1 : Reg) (op2 op3 : Nibble) : List (List Char) :=
  match m.shape with
  | .shapeNone => []
  | .shapeR =>
    if m = .cmp then [regFieldText op2, regFieldText op3]
    else [regText op1, regFieldText op2, regFieldText op3]
  | .shapeI => if m = .jump then [immText op2, immText op3] else [regText op1, immText op2, immText op3]
  | .shapeRI => [regText op1, regFieldText op2, immText op3]

/-- The marker of a word that is no instruction. -/
def unknownInstructionText : List Char :=
  ['u', 'n', 'k', 'n', 'o', 'w', 'n', ' ', 'i', 'n', 's', 't', 'r', 'u', 'c', 't', 'i', 'o', 'n']

/-- The text of an instruction's mnemonic and operands. -/
def instructionText (m : Mnemonic) (op1 : Reg) (op2 op3 : Nibble) : List Char :=
  match operandTexts m op1 op2 op3 with
  | [] => mnemonicText m
  | t :: ts => mnemonicText m ++ [' '] ++ joinOperands (t :: ts)

/-- Disassembly of one word (30_encoding.md rule R77). -/
def disassemble (map : OpcodeMap) (policy : RegfieldPolicy) (w : Word) : List Char :=
  match map.mnemonicOf (opcodeField w) with
  | none => unknownInstructionText
  | some m =>
    let op1 := op1Field w
    let op2 := op2Field w
    let op3 := op3Field w
    if policy = .fault ∧ (Instr.ofFields m op1 op2 op3).wellFormed = false then unknownInstructionText
    else instructionText m op1 op2 op3

end Sys2Proof.Machine
end

