-- ==== Sys2Proof/Machine/Diagnostics.lean ====
section
/-! DEFINITION. The diagnostics projection (60_exceptions.md rule R163), a read-only view no step depends on. -/

namespace Sys2Proof.Machine

/-- The current instruction as the projection shows it. -/
structure CurrentInstr where
  /-- The word at pc. -/
  word : Word
  /-- Its mnemonic; none stands for the marker `unknown instruction` of a reserved opcode. -/
  mnemonic : Option Mnemonic
  /-- For LOAD and STORE with an effective address below 256: that address and the cell's content before the step
  (42_load_store.md rule R117). -/
  cell : Option (Word × Word)
  deriving DecidableEq, Repr

/-- The diagnostics projection of a state (60_exceptions.md rule R163, decision D22). -/
structure Projection where
  regs : Vector Word 8
  nf : Bool
  zf : Bool
  cf : Bool
  pc : Word
  /-- None where pc is 256 or more: there is no current instruction. -/
  current : Option CurrentInstr
  deriving DecidableEq, Repr

/-- The data-memory cell a LOAD or STORE word touches, where its register field names a register (log entry 17) and
its effective address is below 256. -/
def State.touchedCell (s : State) (w : Word) : Option (Word × Word) :=
  match regfield s.params.regfieldPolicy (op2Field w) with
  | .error _ => none
  | .ok b =>
    let ea := effectiveAddress (s.readReg b) (op3Field w)
    if ea.toNat < dmemWords then some (ea, s.dmem.read ea.toNat) else none

/-- The current instruction's part of the projection. -/
def State.currentInstr (s : State) : Option CurrentInstr :=
  if s.pc.toNat < imemWords then
    let w := s.imem.read s.pc.toNat
    let m := s.params.opcodeMap.mnemonicOf (opcodeField w)
    some
      { word := w
        mnemonic := m
        cell := if m = some .load ∨ m = some .store then s.touchedCell w else none }
  else none

/-- The projection produced before a step (60_exceptions.md rule R163). -/
def State.project (s : State) : Projection where
  regs := s.regs
  nf := s.nf
  zf := s.zf
  cf := s.cf
  pc := s.pc
  current := s.currentInstr

end Sys2Proof.Machine
end

