-- ==== Sys2Proof/Machine/Loader.lean ====
section
/-! DEFINITION. Loading a program image before a run (70_reset_and_hazards.md rules R171 to R173). -/

namespace Sys2Proof.Machine

/-- Why a program image is refused; no run starts then. Both are the spec's choice (92_eei_decisions.md D9). -/
inductive LoadError where
  /-- More than 256 words (70_reset_and_hazards.md rule R172). -/
  | imageTooLong
  /-- A file of odd byte length (70_reset_and_hazards.md rule R173). -/
  | oddLength
  deriving DecidableEq, Repr

/-- Program load of an image given as words: `imem[i] <- W[i]` from address 0 upward; nothing else changes
(70_reset_and_hazards.md rule R172). -/
def State.loadImage (s : State) (image : List Word) : Except LoadError State :=
  if imemWords < image.length then .error .imageTooLong
  else .ok { s with imem := s.imem.writeSeq 0 image }

/-- The word made of two consecutive bytes of an image file (70_reset_and_hazards.md rule R173). -/
def wordOfBytes : ByteOrder → Byte → Byte → Word
  | .little, b0, b1 => b0.setWidth 16 ||| (b1.setWidth 16 <<< 8)
  | .big, b0, b1 => (b0.setWidth 16 <<< 8) ||| b1.setWidth 16

/-- The words of an image file (70_reset_and_hazards.md rule R173). -/
def imageWords (order : ByteOrder) : List Byte → Except LoadError (List Word)
  | [] => .ok []
  | [_] => .error .oddLength
  | b0 :: b1 :: rest => (imageWords order rest).map (wordOfBytes order b0 b1 :: ·)

/-- Program load of an image file (70_reset_and_hazards.md rule R173). -/
def State.loadFile (s : State) (order : ByteOrder) (file : List Byte) : Except LoadError State :=
  (imageWords order file).bind s.loadImage

/-- The two bytes of a word in an image file, first byte first (30_encoding.md rule R80). -/
def bytesOfWord : ByteOrder → Word → List Byte
  | .little, w => [w.extractLsb' 0 8, w.extractLsb' 8 8]
  | .big, w => [w.extractLsb' 8 8, w.extractLsb' 0 8]

/-- The image file of a program (30_encoding.md rule R80). -/
def fileOfWords (order : ByteOrder) (image : List Word) : List Byte := image.flatMap (bytesOfWord order)

/-- The state in which a run of an image begins: created, then loaded (70_reset_and_hazards.md rule R171). -/
def startOfRun (p : Params) (image : List Word) : Except LoadError State := (State.create p).loadImage image

end Sys2Proof.Machine
end

