-- ==== Sys2Proof/Machine/Run.lean ====
section
/-! DEFINITION. A run as a sequence of steps (40_fetch_execute.md rules R92 and R98, 70_reset_and_hazards.md rule R175). -/

namespace Sys2Proof.Machine

/-- The state after at most `n` steps: a run that has ended stays as it is (40_fetch_execute.md rule R92). The bound is
the host runner's, not the core's (rule R98). -/
def State.runFor : Nat → State → State
  | 0, s => s
  | n + 1, s =>
    match step s with
    | .next t => State.runFor n t
    | .fault _ => s
    | .refused _ => s

end Sys2Proof.Machine
end

