-- ==== Sys2Proof/Safety.lean ====
section
/-! DEFINITION. The terms the statements use: what a step leaves unchanged, how a word encodes an instruction, which
registers an instruction reads, the invariants of a run, and what explains its end. -/

namespace Sys2Proof.Machine

/-! ### What a step leaves unchanged -/

/-- Every general register but `rA` reads as before. -/
abbrev SameRegsBut (rA : Reg) (s t : State) : Prop := ∀ r, r ≠ rA → t.readReg r = s.readReg r

/-- Every general register reads as before. -/
abbrev SameRegs (s t : State) : Prop := ∀ r, t.readReg r = s.readReg r

/-- NF, ZF and CF are as before. -/
abbrev SameFlags (s t : State) : Prop := t.nf = s.nf ∧ t.zf = s.zf ∧ t.cf = s.cf

/-- Every cell of instruction memory reads as before. -/
abbrev SameCode (s t : State) : Prop := ∀ a, t.imem.read a = s.imem.read a

/-- Every cell of data memory reads as before. -/
abbrev SameData (s t : State) : Prop := ∀ a, t.dmem.read a = s.dmem.read a

/-- The status and the parameters are as before. -/
abbrev SameRun (s t : State) : Prop := t.status = s.status ∧ t.params = s.params

/-- pc moved to the next word modulo 2^16 (40_fetch_execute.md rule R96). -/
abbrev PcAdvanced (s t : State) : Prop := t.pc.toNat = (s.pc.toNat + 1) % 65536

/-- `s` with a fault taken and nothing else changed (60_exceptions.md rule R152). -/
abbrev FaultedBy (reason : FaultReason) (s : State) : State := { s with status := .faulted reason }

/-! ### Encodings and operands -/

/-- Under every injective opcode map, the word of mnemonic `m` with these fields decodes to `i`
(30_encoding.md rules R58 and R69). -/
abbrev Encodes (m : Mnemonic) (op1 : Reg) (op2 op3 : Nibble) (i : Instr) : Prop :=
  ∀ map : OpcodeMap, map.Injective →
    decode map (BitVec.ofNat 16 ((map.code m).toNat * 2048 + op1.toNat * 256 + op2.toNat * 16 + op3.toNat)) = .ok i

/-- The register-typed field names a register in this machine (30_encoding.md rule R63). -/
abbrev NamesReg (s : State) (f : Nibble) : Prop := f.toNat < 8 ∨ s.params.regfieldPolicy = .low3

/-- The register a register-typed field names: its value modulo 8 (30_encoding.md rules R62 and R63). -/
abbrev fieldReg (f : Nibble) : Reg := BitVec.ofNat 3 f.toNat

/-- The mnemonics that write a general register, the one op1 names (10_state.md rule R21). -/
def writesRegister : List Mnemonic :=
  [.load, .ldih, .add, .addi, .addc, .sub, .subi, .subc, .and, .or, .xor, .sll, .srl, .sla, .sra]

end Sys2Proof.Machine

namespace Sys2Proof

/-- The instruction with each register-typed op2 and op3 replaced by its low three bits (30_encoding.md rule R63). -/
def Instr.low3 (i : Instr) : Instr :=
  match i.mnemonic.shape with
  | .shapeNone => i
  | .shapeR => Instr.ofFields i.mnemonic i.op1 (i.op2 &&& 7) (i.op3 &&& 7)
  | .shapeI => i
  | .shapeRI => Instr.ofFields i.mnemonic i.op1 (i.op2 &&& 7) i.op3

/-- The registers an instruction reads (10_state.md rule R21). -/
def Instr.readsRegs (i : Instr) : List Reg :=
  match i.mnemonic with
  | .nop | .halt | .jump => []
  | .load | .sll | .srl | .sla | .sra => [Machine.fieldReg i.op2]
  | .store => [Machine.fieldReg i.op2, i.op1]
  | .ldih | .addi | .subi | .jmpr | .bz | .bnz | .bn | .bnn | .bc | .bnc => [i.op1]
  | .add | .sub | .addc | .subc | .cmp | .and | .or | .xor => [Machine.fieldReg i.op2, Machine.fieldReg i.op3]

end Sys2Proof

namespace Sys2Proof.Machine

/-- The form of ADD, SUB, AND, OR and XOR: `rel x[B] x[C] result` holds of the value written to gr_A, and a field that
names no register is a fault (the Faults line of each rule; the parameter behind it is decision D5, log entry 3). -/
def RegRegForm (m : Mnemonic) (ctor : Reg → Nibble → Nibble → Instr) (rel : Word → Word → Word → Prop) : Prop :=
  (∀ rA op2 op3, Encodes m rA op2 op3 (ctor rA op2 op3)) ∧
  ∀ s rA op2 op3,
    (NamesReg s op2 → NamesReg s op3 →
      ∃ t, exec (ctor rA op2 op3) s = .next t ∧
        rel (s.readReg (fieldReg op2)) (s.readReg (fieldReg op3)) (t.readReg rA) ∧
        SameRegsBut rA s t ∧ SameFlags s t ∧ SameCode s t ∧ SameData s t ∧ SameRun s t ∧ PcAdvanced s t) ∧
    (¬ (NamesReg s op2 ∧ NamesReg s op3) →
      exec (ctor rA op2 op3) s = .next (FaultedBy .illegalRegisterIndex s))

/-- The form of ADDC and SUBC: `rel x[B] x[C] CF result CF'` holds of the value written to gr_A and the new CF. The
fault of a field is as in `RegRegForm` (log entry 3). -/
def RegRegCarryForm (m : Mnemonic) (ctor : Reg → Nibble → Nibble → Instr)
    (rel : Word → Word → Bool → Word → Bool → Prop) : Prop :=
  (∀ rA op2 op3, Encodes m rA op2 op3 (ctor rA op2 op3)) ∧
  ∀ s rA op2 op3,
    (NamesReg s op2 → NamesReg s op3 →
      ∃ t, exec (ctor rA op2 op3) s = .next t ∧
        rel (s.readReg (fieldReg op2)) (s.readReg (fieldReg op3)) s.cf (t.readReg rA) t.cf ∧
        SameRegsBut rA s t ∧ t.nf = s.nf ∧ t.zf = s.zf ∧ SameCode s t ∧ SameData s t ∧ SameRun s t ∧
        PcAdvanced s t) ∧
    (¬ (NamesReg s op2 ∧ NamesReg s op3) →
      exec (ctor rA op2 op3) s = .next (FaultedBy .illegalRegisterIndex s))

/-- The form of LDIH, ADDI and SUBI: `rel x[A] imm8 result` holds of the value written to gr_A, with imm8 the number
`op2 * 16 + op3`. It has no fault of its own. -/
def RegImmForm (m : Mnemonic) (ctor : Reg → Nibble → Nibble → Instr) (rel : Word → Nat → Word → Prop) : Prop :=
  (∀ rA op2 op3, Encodes m rA op2 op3 (ctor rA op2 op3)) ∧
  ∀ s rA op2 op3,
    ∃ t, exec (ctor rA op2 op3) s = .next t ∧
      rel (s.readReg rA) (op2.toNat * 16 + op3.toNat) (t.readReg rA) ∧
      SameRegsBut rA s t ∧ SameFlags s t ∧ SameCode s t ∧ SameData s t ∧ SameRun s t ∧ PcAdvanced s t

/-- The form of SLL, SRL, SLA and SRA: `rel x[B] imm4 result` holds of the value written to gr_A. The fault of a field
is as in `RegRegForm` (log entry 3). -/
def ShiftForm (m : Mnemonic) (ctor : Reg → Nibble → Nibble → Instr) (rel : Word → Nat → Word → Prop) : Prop :=
  (∀ rA op2 op3, Encodes m rA op2 op3 (ctor rA op2 op3)) ∧
  ∀ s rA op2 op3,
    (NamesReg s op2 →
      ∃ t, exec (ctor rA op2 op3) s = .next t ∧
        rel (s.readReg (fieldReg op2)) op3.toNat (t.readReg rA) ∧
        SameRegsBut rA s t ∧ SameFlags s t ∧ SameCode s t ∧ SameData s t ∧ SameRun s t ∧ PcAdvanced s t) ∧
    (¬ NamesReg s op2 → exec (ctor rA op2 op3) s = .next (FaultedBy .illegalRegisterIndex s))

/-- The form of JMPR and the conditional branches, taken where `cond` holds: pc becomes x[A] + imm8 modulo 2^16, else
the next word; nothing else changes. A target of 256 or more faults at the next fetch (decision D8, log entry 21). -/
def BranchForm (m : Mnemonic) (ctor : Reg → Nibble → Nibble → Instr) (cond : State → Prop) : Prop :=
  (∀ rA op2 op3, Encodes m rA op2 op3 (ctor rA op2 op3)) ∧
  ∀ s rA op2 op3,
    ∃ t, exec (ctor rA op2 op3) s = .next t ∧
      (cond s → t.pc.toNat = ((s.readReg rA).toNat + (op2.toNat * 16 + op3.toNat)) % 65536) ∧
      (¬ cond s → PcAdvanced s t) ∧
      SameRegs s t ∧ SameFlags s t ∧ SameCode s t ∧ SameData s t ∧ SameRun s t ∧
      (s.status = .running → 256 ≤ t.pc.toNat → step t = .next (FaultedBy .addressOutOfRange t))

/-! ### Invariants and runs -/

/-- What every step keeps: an injective opcode map (30_encoding.md rule R67), both memories in canonical form, and NF
and ZF never both set (the two come from one CMP result, 40_fetch_execute.md rule R105). -/
abbrev State.Inv (s : State) : Prop :=
  s.params.opcodeMap.Injective ∧ s.imem.wf = true ∧ s.dmem.wf = true ∧ ¬ (s.nf = true ∧ s.zf = true)

/-- The instruction the word at pc decodes to is `i`, and pc is inside instruction memory. -/
abbrev State.Fetches (s : State) (i : Instr) : Prop :=
  s.pc.toNat < 256 ∧ decode s.params.opcodeMap (s.imem.read s.pc.toNat) = .ok i

/-- The state itself still shows why its run ended (60_exceptions.md rules R151 and R152, 41_system.md rule R111): a
host finds the HALT word or the cause of the fault in it. -/
def State.EndExplained (s : State) : Prop :=
  match s.status with
  | .running => True
  | .halted =>
    ∃ a : Nat, a < 256 ∧ decode s.params.opcodeMap (s.imem.read a) = .ok .halt ∧
      s.pc.toNat = if s.params.haltAdvancesPc then a + 1 else a
  | .faulted .unknownOpcode =>
    s.pc.toNat < 256 ∧ ∀ m, s.params.opcodeMap.code m ≠ opcodeField (s.imem.read s.pc.toNat)
  | .faulted .illegalRegisterIndex =>
    s.params.regfieldPolicy = .fault ∧ ∃ i, s.Fetches i ∧ i.wellFormed = false
  | .faulted .addressOutOfRange =>
    256 ≤ s.pc.toNat ∨
      ∃ rA op2 op3, (s.Fetches (.load rA op2 op3) ∨ s.Fetches (.store rA op2 op3)) ∧ NamesReg s op2 ∧
        256 ≤ ((s.readReg (fieldReg op2)).toNat + op3.toNat) % 65536

/-- A run that never faults: after any number of steps the status is Running or Halted. -/
def State.RunsSafely (s : State) : Prop := ∀ n reason, (s.runFor n).status ≠ .faulted reason

end Sys2Proof.Machine
end

