-- ==== Sys2Proof/Certificates/Slice0/Obligations.lean ====
section
/-! DEFINITION. The statements for the provers. They hold for every value of the parameters a state carries
(00_scope.md rule R9) unless one says otherwise. -/

open Sys2Proof Sys2Proof.Machine

/-! ### Instructions: effect, completion and frame -/

/-- NOP (R110): any word of its opcode is NOP, and it only advances pc. That the unused bits are ignored is the spec's own
choice (decision D6, log entry 11). -/
def Obligations.NopOnlyAdvancesPc : Prop :=
  (∀ op1 op2 op3, Encodes .nop op1 op2 op3 .nop) ∧
  ∀ s, ∃ t, exec .nop s = .next t ∧ PcAdvanced s t ∧
    SameRegs s t ∧ SameFlags s t ∧ SameCode s t ∧ SameData s t ∧ SameRun s t

/-- HALT (R111): the status becomes Halted, which is final, and nothing else changes but pc, and pc only where
HALT_ADVANCES_PC says so (decision D4, log entry 2: the parameter and not one of its values is stated). That the unused
bits are ignored is decision D6 (log entry 11), and how a state without an enabled step answers is the model's (log
entry 7). -/
def Obligations.HaltEndsTheRun : Prop :=
  (∀ op1 op2 op3, Encodes .halt op1 op2 op3 .halt) ∧
  ∀ s, ∃ t, exec .halt s = .next t ∧ t.status = .halted ∧
    (s.params.haltAdvancesPc = true → PcAdvanced s t) ∧ (s.params.haltAdvancesPc = false → t.pc = s.pc) ∧
    SameRegs s t ∧ SameFlags s t ∧ SameCode s t ∧ SameData s t ∧ t.params = s.params ∧ step t = .fault .runHalted

/-- LOAD (R115). The range fault is decision D7, the wrap of the address decision D21, the register-field fault
decision D5 (log entries 3 and 10). -/
def Obligations.LoadReadsOneDataWord : Prop :=
  (∀ rA op2 op3, Encodes .load rA op2 op3 (.load rA op2 op3)) ∧
  ∀ s rA op2 op3,
    let ea := (effectiveAddress (s.readReg (fieldReg op2)) op3).toNat
    ea = ((s.readReg (fieldReg op2)).toNat + op3.toNat) % 65536 ∧
    (NamesReg s op2 → ea < 256 →
      ∃ t, exec (.load rA op2 op3) s = .next t ∧ t.readReg rA = s.dmem.read ea ∧
        SameRegsBut rA s t ∧ SameFlags s t ∧ SameCode s t ∧ SameData s t ∧ SameRun s t ∧ PcAdvanced s t) ∧
    (NamesReg s op2 → 256 ≤ ea → exec (.load rA op2 op3) s = .next (FaultedBy .addressOutOfRange s)) ∧
    (¬ NamesReg s op2 → exec (.load rA op2 op3) s = .next (FaultedBy .illegalRegisterIndex s))

/-- STORE (R116), in every state whose data memory is in canonical form (which every step keeps). The range fault is
decision D7, the wrap decision D21, the register-field fault decision D5 (log entries 3 and 10). -/
def Obligations.StoreWritesOneDataWord : Prop :=
  (∀ rA op2 op3, Encodes .store rA op2 op3 (.store rA op2 op3)) ∧
  ∀ s rA op2 op3, s.dmem.wf = true →
    let ea := (effectiveAddress (s.readReg (fieldReg op2)) op3).toNat
    ea = ((s.readReg (fieldReg op2)).toNat + op3.toNat) % 65536 ∧
    (NamesReg s op2 → ea < 256 →
      ∃ t, exec (.store rA op2 op3) s = .next t ∧ t.dmem.read ea = s.readReg rA ∧
        (∀ a, a ≠ ea → t.dmem.read a = s.dmem.read a) ∧
        SameRegs s t ∧ SameFlags s t ∧ SameCode s t ∧ SameRun s t ∧ PcAdvanced s t) ∧
    (NamesReg s op2 → 256 ≤ ea → exec (.store rA op2 op3) s = .next (FaultedBy .addressOutOfRange s)) ∧
    (¬ NamesReg s op2 → exec (.store rA op2 op3) s = .next (FaultedBy .illegalRegisterIndex s))

/-- LDIH (R120) adds its immediate into the high byte: the low byte stays, and a carry out of bit 15 is lost. That it adds
and that its immediate is unsigned is the spec's own choice (decision D23, conflict C7, log entry 13). -/
def Obligations.LdihAddsIntoTheHighByte : Prop :=
  RegImmForm .ldih .ldih fun x imm r =>
    r.toNat = (x.toNat + imm * 256) % 65536 ∧ r.toNat % 256 = x.toNat % 256

/-- ADDI (R122) adds an 8-bit immediate. That it is unsigned is the spec's own choice (decision D23, log entry 13). -/
def Obligations.AddiAddsAnUnsignedByte : Prop :=
  RegImmForm .addi .addi fun x imm r => r.toNat = (x.toNat + imm) % 65536

/-- SUBI (R125) subtracts an unsigned 8-bit immediate from rA. That it mirrors ADDI is the spec's own choice
(decision D3, conflict C1, log entry 12). -/
def Obligations.SubiSubtractsAnUnsignedByte : Prop :=
  RegImmForm .subi .subi fun x imm r => (r.toNat : Int) = ((x.toNat : Int) - imm) % 65536

/-- ADD (R121) and SUB (R124) wrap at 16 bits and touch no flag. The fault of a register field is the spec's own choice
(decision D5, log entry 3). -/
def Obligations.AddAndSubWrapWithoutFlags : Prop :=
  RegRegForm .add .add (fun x y r => r.toNat = (x.toNat + y.toNat) % 65536) ∧
  RegRegForm .sub .sub (fun x y r => (r.toNat : Int) = ((x.toNat : Int) - y.toNat) % 65536)

/-- ADDC (R123) and SUBC (R126): result and CF together are the exact sum, or the exact difference with CF as borrow. The
fault of a register field is the spec's own choice (decision D5, log entry 3). -/
def Obligations.AddcAndSubcAreExactWithCarry : Prop :=
  RegRegCarryForm .addc .addc (fun x y c r c' =>
    r.toNat + 65536 * c'.toNat = x.toNat + y.toNat + c.toNat) ∧
  RegRegCarryForm .subc .subc (fun x y c r c' =>
    (r.toNat : Int) - 65536 * c'.toNat = (x.toNat : Int) - y.toNat - c.toNat)

/-- CMP (R127) writes NF and ZF from the difference and nothing else. That op1 is ignored is the spec's own choice
(decision D6, log entry 11), and so is the fault of a register field (decision D5, log entry 3). -/
def Obligations.CmpWritesOnlyNegativeAndZero : Prop :=
  (∀ op1 op2 op3, Encodes .cmp op1 op2 op3 (.cmp op2 op3)) ∧
  ∀ s op2 op3,
    let x := s.readReg (fieldReg op2)
    let y := s.readReg (fieldReg op3)
    (NamesReg s op2 → NamesReg s op3 →
      ∃ t, exec (.cmp op2 op3) s = .next t ∧ (t.zf = true ↔ x = y) ∧
        (t.nf = true ↔ 32768 ≤ ((x.toNat : Int) - y.toNat) % 65536) ∧ t.cf = s.cf ∧
        SameRegs s t ∧ SameCode s t ∧ SameData s t ∧ SameRun s t ∧ PcAdvanced s t) ∧
    (¬ (NamesReg s op2 ∧ NamesReg s op3) → exec (.cmp op2 op3) s = .next (FaultedBy .illegalRegisterIndex s))

/-- AND (R130), OR (R131) and XOR (R132), bit by bit, without flags. The fault of a register field is the spec's own choice
(decision D5, log entry 3). -/
def Obligations.LogicActsBitByBit : Prop :=
  RegRegForm .and .and (fun x y r => ∀ k < 16, r.getLsbD k = (x.getLsbD k && y.getLsbD k)) ∧
  RegRegForm .or .or (fun x y r => ∀ k < 16, r.getLsbD k = (x.getLsbD k || y.getLsbD k)) ∧
  RegRegForm .xor .xor (fun x y r => ∀ k < 16, r.getLsbD k = (x.getLsbD k != y.getLsbD k))

/-- SLL (R133), SRL (R134), SLA (R135) and SRA (R136), without flags. SRA's bit k is bit k + n of the source, or its bit
15 beyond the top. The fault of a register field is the spec's own choice (decision D5, log entry 3). -/
def Obligations.ShiftsMoveBitsWithoutFlags : Prop :=
  ShiftForm .sll .sll (fun x n r => r.toNat = (x.toNat * 2 ^ n) % 65536) ∧
  ShiftForm .srl .srl (fun x n r => r.toNat = x.toNat / 2 ^ n) ∧
  ShiftForm .sla .sla (fun x n r => r.toNat = (x.toNat * 2 ^ n) % 65536) ∧
  ShiftForm .sra .sra (fun x n r => ∀ k < 16, r.getLsbD k = if k + n < 16 then x.getLsbD (k + n) else x.getLsbD 15)

/-- JUMP (R140) goes to its 8-bit target, which is inside instruction memory. That op1 is ignored and that the immediate is
unsigned is the spec's own choice (decisions D6 and D23, log entries 11 and 13). -/
def Obligations.JumpGoesToItsImmediate : Prop :=
  (∀ op1 op2 op3, Encodes .jump op1 op2 op3 (.jump op2 op3)) ∧
  ∀ s op2 op3, ∃ t, exec (.jump op2 op3) s = .next t ∧ t.pc.toNat = op2.toNat * 16 + op3.toNat ∧ t.pc.toNat < 256 ∧
    SameRegs s t ∧ SameFlags s t ∧ SameCode s t ∧ SameData s t ∧ SameRun s t

/-- JMPR (R141) goes to register plus immediate modulo 2^16, and an out-of-range target faults at the next fetch. Its
shape is the spec's own choice (decision D2, log entry 12), as are the wrap (D21) and the place of the fault (D8). -/
def Obligations.JmprGoesToRegisterPlusImmediate : Prop :=
  BranchForm .jmpr .jmpr (fun _ => True)

/-- BZ (R142), BNZ (R143), BN (R144), BNN (R145), BC (R146) and BNC (R147). The wrap of the target, the place of the fault
and the unsigned immediate are the spec's own choices (decisions D21, D8 and D23, log entries 10, 21 and 13). -/
def Obligations.BranchesFollowTheirFlag : Prop :=
  BranchForm .bz .bz (fun s => s.zf = true) ∧ BranchForm .bnz .bnz (fun s => s.zf = false) ∧
  BranchForm .bn .bn (fun s => s.nf = true) ∧ BranchForm .bnn .bnn (fun s => s.nf = false) ∧
  BranchForm .bc .bc (fun s => s.cf = true) ∧ BranchForm .bnc .bnc (fun s => s.cf = false)

/-! ### Operands and ALU functions -/

/-- The immediates (R64) are unsigned and zero-extended, the spec's own choice (decision D23, log entry 13). -/
def Obligations.ImmediatesAreUnsigned : Prop :=
  ∀ op2 op3 : Nibble, (imm4Word op3).toNat = op3.toNat ∧ (imm8Word op2 op3).toNat = op2.toNat * 16 + op3.toNat ∧
    (immHWord op2 op3).toNat = (op2.toNat * 16 + op3.toNat) * 256

/-- The 16-bit sum, difference, sum with carry and flag functions (R99, R100, R105). -/
def Obligations.AluSumsAndFlagsMeetTheirFormulas : Prop :=
  ∀ a b : Word, ∀ c : Bool,
    (add16 a b).toNat = (a.toNat + b.toNat) % 65536 ∧
    ((sub16 a b).toNat : Int) = ((a.toNat : Int) - b.toNat) % 65536 ∧
    (addc a b c).1.toNat = (a.toNat + b.toNat + c.toNat) % 65536 ∧
    ((addc a b c).2 = true ↔ 65535 < a.toNat + b.toNat + c.toNat) ∧
    (zeroFlag a = true ↔ a.toNat = 0) ∧ (negFlag a = true ↔ 32768 ≤ a.toNat)

/-- SRA is division by a power of two rounded down, on signed words: a consequence of the formula of R103. -/
def Obligations.SraIsSignedFloorDivision : Prop :=
  ∀ (a : Word) (n : Nibble), (sra16 a n).toInt = a.toInt / 2 ^ n.toNat

/-- Two ADDC from CF = 0 add 32-bit numbers, and two SUBC subtract them (the corner cases of R123 and R126), where the
first destination is none of the second instruction's operands. -/
def Obligations.CarryChainsCompute32Bits : Prop :=
  ∀ s (dLo dHi xLo xHi yLo yHi : Reg), s.cf = false → dLo ≠ dHi → dLo ≠ xHi → dLo ≠ yHi →
    let value := fun (t : State) (hi lo : Reg) => (t.readReg hi).toNat * 65536 + (t.readReg lo).toNat
    (∃ t u, exec (.addc dLo (xLo.setWidth 4) (yLo.setWidth 4)) s = .next t ∧
      exec (.addc dHi (xHi.setWidth 4) (yHi.setWidth 4)) t = .next u ∧
      value u dHi dLo + 2 ^ 32 * u.cf.toNat = value s xHi xLo + value s yHi yLo) ∧
    (∃ t u, exec (.subc dLo (xLo.setWidth 4) (yLo.setWidth 4)) s = .next t ∧
      exec (.subc dHi (xHi.setWidth 4) (yHi.setWidth 4)) t = .next u ∧
      (value u dHi dLo : Int) - 2 ^ 32 * u.cf.toNat = (value s xHi xLo : Int) - value s yHi yLo)

/-- NF after CMP is the signed comparison exactly where the signed difference does not overflow (R27). -/
def Obligations.NegativeFlagIsSignedLessOnlyWithoutOverflow : Prop :=
  ∀ s op2 op3, NamesReg s op2 → NamesReg s op3 →
    let d := (s.readReg (fieldReg op2)).toInt - (s.readReg (fieldReg op3)).toInt
    ∃ t, exec (.cmp op2 op3) s = .next t ∧
      ((t.nf = true ↔ d < 0) ↔ (-32768 ≤ d ∧ d ≤ 32767))

/-! ### The step -/

/-- A step runs the instruction the word at pc decodes to (R93). -/
def Obligations.StepRunsDecodedInstruction : Prop :=
  ∀ (s : State) (i : Instr), s.status = .running → s.Fetches i → step s = exec i s

/-- The stages of a step (R93): a fault of fetch, a fault of decode, or the instruction's execution. That a fault changes
nothing but the status is decision D14 (log entry 9), the fault of a register field decision D5 (log entry 3), and that
execution begins with the check of the fields, which the spec puts at the end of decode, is the model's (log entry 8). -/
def Obligations.StepStagesInOrder : Prop :=
  ∀ s, s.status = .running →
    (256 ≤ s.pc.toNat → step s = .next (FaultedBy .addressOutOfRange s)) ∧
    (s.pc.toNat < 256 → (∀ m, s.params.opcodeMap.code m ≠ opcodeField (s.imem.read s.pc.toNat)) →
      step s = .next (FaultedBy .unknownOpcode s)) ∧
    (∀ i, s.Fetches i → s.params.regfieldPolicy = .fault → i.wellFormed = false →
      step s = .next (FaultedBy .illegalRegisterIndex s)) ∧
    (∀ i, s.Fetches i → (s.params.regfieldPolicy = .low3 ∨ i.wellFormed = true) → step s = exec i s)

/-- A step is enabled exactly in Running, a created state is Running, and Halted is reached by HALT alone (R92). How a state
without an enabled step answers is the model's (log entry 7). -/
def Obligations.StepIsEnabledExactlyInRunning : Prop :=
  (∀ p, (State.create p).status = .running) ∧
  ∀ s, ((∃ t, step s = .next t) ↔ s.status = .running) ∧
    (s.status = .halted → step s = .fault .runHalted) ∧
    (∀ reason, s.status = .faulted reason → step s = .fault (.runFaulted reason)) ∧
    (∀ t, step s = .next t → (t.status = .halted ↔ s.Fetches .halt))

/-- Every instruction, on every operand and in every state, answers a next state: no instruction is refused. That a fault
of the hardware is a next state, and that exec does not look at the status, are the model's reading (log entries 7
and 15). -/
def Obligations.EveryInstructionHasANextState : Prop :=
  ∀ i s, ∃ t, exec i s = .next t

/-- A step that ends in a fault changes the status and nothing else (R152): the spec's own choice for every fault but
UnknownOpcode (decision D14, log entry 9). -/
def Obligations.FaultsArePrecise : Prop :=
  ∀ s t reason, step s = .next t → t.status = .faulted reason → t = FaultedBy reason s

/-- Which faults a step takes, and exactly when, in the order of R151 and R153 (decisions D5, D7, D15; log entries 3, 9
and 10). -/
def Obligations.FaultsHaveExactlyTheirCauses : Prop :=
  ∀ s t, step s = .next t →
    (t.status = .faulted .unknownOpcode ↔
      s.pc.toNat < 256 ∧ ∀ m, s.params.opcodeMap.code m ≠ opcodeField (s.imem.read s.pc.toNat)) ∧
    (t.status = .faulted .illegalRegisterIndex ↔
      s.params.regfieldPolicy = .fault ∧ ∃ i, s.Fetches i ∧ i.wellFormed = false) ∧
    (t.status = .faulted .addressOutOfRange ↔
      256 ≤ s.pc.toNat ∨
        ∃ rA op2 op3, (s.Fetches (.load rA op2 op3) ∨ s.Fetches (.store rA op2 op3)) ∧ NamesReg s op2 ∧
          256 ≤ ((s.readReg (fieldReg op2)).toNat + op3.toNat) % 65536)

/-- A register field of 8 to 15 (R63), the spec's own choice under both policies (decision D5, log entry 3). -/
def Obligations.RegisterFieldPolicyDecidesIllFormedInstructions : Prop :=
  ∀ (i : Instr) (s : State),
    (i.wellFormed = false → s.params.regfieldPolicy = .fault →
      exec i s = .next (FaultedBy .illegalRegisterIndex s)) ∧
    (s.params.regfieldPolicy = .low3 → exec i s = exec i.low3 s ∧ i.low3.wellFormed = true) ∧
    (i.wellFormed = true → ∀ policy t, exec i s = .next t →
      exec i { s with params.regfieldPolicy := policy } = .next { t with params.regfieldPolicy := policy })

/-- Only CMP changes NF or ZF, and only ADDC and SUBC change CF (R25). -/
def Obligations.FlagsChangeOnlyByTheirInstructions : Prop :=
  ∀ i s t, exec i s = .next t →
    (t.nf ≠ s.nf ∨ t.zf ≠ s.zf → i.mnemonic = .cmp) ∧ (t.cf ≠ s.cf → i.mnemonic = .addc ∨ i.mnemonic = .subc)

/-- A register changes only if it is op1 of an instruction that writes one (R21, derived there). -/
def Obligations.RegistersChangeOnlyAsDestination : Prop :=
  ∀ i s t r, exec i s = .next t → t.readReg r ≠ s.readReg r → r = i.op1 ∧ i.mnemonic ∈ writesRegister

/-- A register an instruction does not read has no influence on it (R21, derived there): not on any other state, and not
on the register itself where the instruction writes it. Where it does not, or faults (which leaves pc as it is,
decision D14, log entry 9), the register keeps its value. -/
def Obligations.UnreadRegistersHaveNoInfluence : Prop :=
  ∀ (i : Instr) (s : State) (r : Reg) (v : Word), r ∉ i.readsRegs →
    ∃ t u, exec i s = .next t ∧ exec i (s.writeReg r v) = .next u ∧
      SameRegsBut r t u ∧ SameFlags t u ∧ SameCode t u ∧ SameData t u ∧ SameRun t u ∧ u.pc = t.pc ∧
      u.readReg r = if r = i.op1 ∧ i.mnemonic ∈ writesRegister ∧ t.pc ≠ s.pc then t.readReg r else v

/-- HALT_ADVANCES_PC changes nothing but the final pc of a halted run (R111, decision D4, log entry 2). -/
def Obligations.HaltParameterMovesOnlyTheFinalPc : Prop :=
  ∀ i s b t, exec i s = .next t →
    ∃ u, exec i { s with params.haltAdvancesPc := b } = .next u ∧
      { u with pc := t.pc } = { t with params.haltAdvancesPc := b } ∧ (i ≠ .halt → u.pc = t.pc)

/-! ### Memories -/

/-- Instruction memory is constant in a run of any length (R55), and so are the parameters, the model's own field (log
entry 5). -/
def Obligations.InstructionMemoryIsConstant : Prop :=
  ∀ (n : Nat) (s : State), (s.runFor n).imem = s.imem ∧ (s.runFor n).params = s.params

/-- The two address spaces are disjoint (R40): no instruction's effect depends on instruction memory or changes it, and
what the machine fetches and decodes does not depend on data memory. -/
def Obligations.AddressSpacesAreDisjoint : Prop :=
  (∀ i s t m, exec i s = .next t → t.imem = s.imem ∧ exec i { s with imem := m } = .next { t with imem := m }) ∧
  (∀ (s : State) m, State.fetchDecode { s with dmem := m } = s.fetchDecode)

/-- A step changes at most one data-memory cell, and only if it runs a STORE to it (R45, R49). -/
def Obligations.DataMemoryChangesOnlyByStore : Prop :=
  ∀ s t a, s.dmem.wf = true → step s = .next t → t.dmem.read a ≠ s.dmem.read a →
    ∃ rA op2 op3, s.Fetches (.store rA op2 op3) ∧ NamesReg s op2 ∧ a < 256 ∧
      a = (effectiveAddress (s.readReg (fieldReg op2)) op3).toNat ∧ t.dmem.read a = s.readReg rA

/-- A LOAD right after a STORE to the same address reads the stored value (R53). -/
def Obligations.StoreThenLoadReturnsTheValue : Prop :=
  ∀ s rA op2 op3 rD op2' op3', s.dmem.wf = true → NamesReg s op2 → NamesReg s op2' →
    (effectiveAddress (s.readReg (fieldReg op2)) op3).toNat < 256 →
    effectiveAddress (s.readReg (fieldReg op2')) op3' = effectiveAddress (s.readReg (fieldReg op2)) op3 →
    ∃ t u, exec (.store rA op2 op3) s = .next t ∧ exec (.load rD op2' op3') t = .next u ∧
      u.readReg rD = s.readReg rA

/-! ### Invariants over every state and every run -/

/-- The invariant holds in a created state with an injective map, in the reset state, and after an image is loaded. The
canonical form of the memories (log entry 6) and the map in the state (log entries 5 and 22) are the model's choice. -/
def Obligations.InvariantHoldsWhenARunStarts : Prop :=
  State.reset.Inv ∧
  ∀ p image s, p.opcodeMap.Injective → startOfRun p image = .ok s → s.Inv

/-- Every step keeps the invariant: the opcode map stays injective, both memories stay in canonical form, and NF and ZF
are never both set. The canonical form of the memories (log entry 6) and the map in the state (log entries 5 and 22)
are the model's choice. -/
def Obligations.InvariantIsKeptByEveryStep : Prop :=
  ∀ s t, s.Inv → Sys2Proof.Machine.step s = .next t → t.Inv

/-- However long a run is, the state it is in still explains its end (R111, R151, R152, R175): a run that ended shows the
HALT word or the fault's cause. The final pc of HALT is decision D4, the fault of a register field D5, the range check
and wrap of a data address D7 and D21, and what a fault leaves D14 (log entries 2, 3, 10 and 9). -/
def Obligations.EveryEndIsExplainedByTheFinalState : Prop :=
  ∀ (n : Nat) (s : State), s.status = .running → (s.runFor n).EndExplained

/-- A JUMP to its own address runs forever, changing nothing (R98, where the absence of a step budget is decision D13, log
entry 18). -/
def Obligations.JumpToItselfNeverEnds : Prop :=
  ∀ (s : State) (op2 op3 : Nibble), s.status = .running → s.Fetches (.jump op2 op3) → s.pc.toNat = op2.toNat * 16 + op3.toNat →
    ∀ n, s.runFor n = s

/-! ### Encoding -/

/-- Decoding the encoding of an instruction gives it back, for every instruction with every operand and under every
injective opcode map; the encoding has the layout of R58. For a register field of 8 to 15 it is about this decode, which
keeps the field and leaves its check to the meaning (log entry 8). -/
def Obligations.DecodeOfEncodeIsTheInstruction : Prop :=
  ∀ map : OpcodeMap, map.Injective → ∀ i,
    decode map (encode map i) = .ok i ∧
    (encode map i).toNat =
      (map.code i.mnemonic).toNat * 2048 + i.op1.toNat * 256 + i.op2.toNat * 16 + i.op3.toNat

/-- Encoding what a word decodes to gives the word back exactly where its unused fields are 0 (R65, R78, decision D6, log
entry 11), for every word and every opcode map. For a register field of 8 to 15 it is about this decode, which keeps the
field and leaves its check to the meaning (log entry 8). -/
def Obligations.EncodeOfDecodeIsTheCanonicalWord : Prop :=
  ∀ map w i, decode map w = .ok i →
    (encode map i = w ↔
      ((i.mnemonic = .nop ∨ i.mnemonic = .halt → w.toNat % 2048 = 0) ∧
        (i.mnemonic = .cmp ∨ i.mnemonic = .jump → op1Field w = 0)))

/-- A word's opcode is unknown exactly where it is assigned to no mnemonic (R68). That this decode answers an instruction
for a register field of 8 to 15 too, whose check it leaves to the meaning, is the model's choice (log entry 8). -/
def Obligations.DecodeRefusesExactlyReservedOpcodes : Prop :=
  ∀ map w, (decode map w = .error (.unknownOpcode (opcodeField w)) ↔ ∀ m, map.code m ≠ opcodeField w) ∧
    ((∃ i, decode map w = .ok i) ↔ ∃ m, map.code m = opcodeField w)

/-- Under the default map, which the spec supplies from general knowledge (R66, log entry 1), exactly the words 0x9800 to
0xBFFF have a reserved opcode. Words of an assigned opcode with a register field of 8 to 15 decode here, and the
meaning refuses them under the policy fault (log entries 3 and 8). -/
def Obligations.DefaultMapReservesCodes19To23 : Prop :=
  OpcodeMap.default.Injective ∧
  ∀ w : Word, (∃ i, decode OpcodeMap.default w = .ok i) ↔ ¬ (0x9800 ≤ w.toNat ∧ w.toNat ≤ 0xBFFF)

/-- Words written out from the spec's encodings decode to their instructions under the default map (log entry 1). The word
of JUMP has op1 = 3; that JUMP ignores it is the spec's own choice (R65, decision D6, log entry 11). -/
def Obligations.DefaultMapDecodesTheSpecsWords : Prop :=
  decode OpcodeMap.default 0x1123 = .ok (.load 1 2 3) ∧ decode OpcodeMap.default 0x192F = .ok (.store 1 2 15) ∧
  decode OpcodeMap.default 0x9123 = .ok (.subc 1 2 3) ∧ decode OpcodeMap.default 0x3924 = .ok (.sra 1 2 4) ∧
  decode OpcodeMap.default 0xC312 = .ok (.jump 1 2) ∧ decode OpcodeMap.default 0xFFFF = .ok (.bnc 7 15 15)

/-- An instruction placed by `withFetchWord` is what the next step runs (the interface of log entry 14). -/
def Obligations.PlacedInstructionIsTheNextStep : Prop :=
  ∀ (s : State) (w : Nat) (i : Instr), s.imem.wf = true → decode s.params.opcodeMap (BitVec.ofNat 16 w) = .ok i →
    step (s.withFetchWord 16 w) = exec i (s.withFetchWord 16 w)

/-! ### Reset and loading -/

/-- The reset state (R33, R170), before an image is loaded: everything zero, Running, pc 0. -/
def Obligations.ResetIsAllZeroAndRunning : Prop :=
  (∀ r, State.reset.readReg r = 0) ∧ State.reset.pc = 0 ∧ State.reset.nf = false ∧ State.reset.zf = false ∧
  State.reset.cf = false ∧ (∀ a, State.reset.imem.read a = 0) ∧ (∀ a, State.reset.dmem.read a = 0) ∧
  State.reset.status = .running

/-- The state when a run starts (R33), for every image that fits: the image's words in order from address 0, and zero
everywhere else. That the state also holds the parameters given is the model's choice (log entry 5). -/
def Obligations.RunStartsWithTheImageAndZeros : Prop :=
  ∀ p (image : List Word), image.length ≤ 256 →
    ∃ s, startOfRun p image = .ok s ∧
      (∀ i, i < image.length → s.imem.read i = image.getD i 0) ∧
      (∀ i, image.length ≤ i → s.imem.read i = 0) ∧
      (∀ a, s.dmem.read a = 0) ∧ (∀ r, s.readReg r = 0) ∧ s.pc = 0 ∧
      s.nf = false ∧ s.zf = false ∧ s.cf = false ∧ s.status = .running ∧ s.params = p

/-- The words of an image file (R173) under each byte order; an odd file and a long image are refused (R172). The
refusals are the spec's own choice (decision D9, log entry 20), and the byte order is an open parameter (decision D10,
log entry 4). -/
def Obligations.ImageFileLoadsWordsInItsByteOrder : Prop :=
  ∀ (s : State) (order : ByteOrder) (file : List Byte),
    (file.length % 2 = 1 → s.loadFile order file = .error .oddLength) ∧
    (file.length % 2 = 0 →
      ∃ ws : List Word, s.loadFile order file = s.loadImage ws ∧ 2 * ws.length = file.length ∧
        (256 < ws.length → s.loadFile order file = .error .imageTooLong) ∧
        ∀ i, i < ws.length →
          (ws.getD i 0).toNat =
            match order with
            | .little => (file.getD (2 * i) 0).toNat + 256 * (file.getD (2 * i + 1) 0).toNat
            | .big => 256 * (file.getD (2 * i) 0).toNat + (file.getD (2 * i + 1) 0).toNat)

/-- Reading back the file of a program gives the program (R80, R173), under each byte order. -/
def Obligations.ImageFileRoundTrips : Prop :=
  ∀ order (image : List Word), imageWords order (fileOfWords order image) = .ok image

/-! ### Diagnostics and the toolchain contract -/

/-- What the diagnostics projection shows (R163). That it holds pc, and what it omits where pc or the address is out of
range, is the spec's own choice (decision D22); what it omits for a field that names no register is the model's
(log entry 17). -/
def Obligations.ProjectionShowsStateAndCurrentInstruction : Prop :=
  ∀ s : State,
    s.project.regs = s.regs ∧ s.project.nf = s.nf ∧ s.project.zf = s.zf ∧ s.project.cf = s.cf ∧ s.project.pc = s.pc ∧
    (256 ≤ s.pc.toNat → s.project.current = none) ∧
    (s.pc.toNat < 256 →
      ∃ c, s.project.current = some c ∧ c.word = s.imem.read s.pc.toNat ∧
        (∀ i, s.Fetches i → c.mnemonic = some i.mnemonic) ∧
        ((∀ i, ¬ s.Fetches i) → c.mnemonic = none ∧ c.cell = none) ∧
        (∀ rA op2 op3, (s.Fetches (.load rA op2 op3) ∨ s.Fetches (.store rA op2 op3)) →
          let ea := effectiveAddress (s.readReg (fieldReg op2)) op3
          c.cell = if NamesReg s op2 ∧ ea.toNat < 256 then some (ea, s.dmem.read ea.toNat) else none) ∧
        (∀ i, s.Fetches i → i.mnemonic ≠ .load → i.mnemonic ≠ .store → c.cell = none))

/-- An immediate token is masked to 4 bits, with or without a sign (R74). -/
def Obligations.ImmediateTokensAreMasked : Prop :=
  ∀ (t : List Char) (n : Nat), naturalOfText t = some n →
    immToken t = .ok (BitVec.ofNat 4 (n % 16)) ∧ immToken ('+' :: t) = .ok (BitVec.ofNat 4 (n % 16)) ∧
    immToken ('-' :: t) = .ok (BitVec.ofNat 4 ((16 - n % 16) % 16))

/-- Only the names gr0 to gr7 resolve, each to its own register, and any other token of a register operand is refused
(R72). -/
def Obligations.OnlyRegisterNamesResolve : Prop :=
  ∀ t : List Char, (∀ r, regToken t = .ok r ↔ t = regText r) ∧
    ((∀ r, t ≠ regText r) → regToken t = .error .unresolvedRegister)

/-- Assembling the disassembly of a canonical word gives the word (R78), under every injective opcode map and either
register-field policy. -/
def Obligations.AssemblyOfDisassemblyIsTheWord : Prop :=
  ∀ (map : OpcodeMap) policy i, map.Injective → i.wellFormed = true →
    assembleLine map (disassemble map policy (encode map i)) = .ok (some (encode map i))

/-- A line of a mnemonic with operands whose first of three tokens is no register's name is refused as
UnresolvedRegister (R72), a number in a three-operand JUMP too. That it is so whatever the other tokens are rests on the
model's order of checks (log entry 16). -/
def Obligations.LinesWithAnUnresolvedFirstRegisterAreRefused : Prop :=
  ∀ (m : Mnemonic) (a b c : List Char), m.shape ≠ .shapeNone → (∀ r, a ≠ regText r) →
    operandFields m [a, b, c] = .error .unresolvedRegister

/-! ### The end of a step, and the functions of words -/

/-- The state a step leads to, from whatever state, explains its end (R111, R151, R152). The choices it rests on are those of
`EveryEndIsExplainedByTheFinalState` (decisions D4, D5, D7, D21 and D14, log entries 2, 3, 10 and 9). -/
def Obligations.EveryStepExplainsItsEnd : Prop :=
  ∀ s t, step s = .next t → t.EndExplained

/-- The logic functions and the shift functions (R102, R103), the last by the spec's own formula. -/
def Obligations.LogicAndShiftFunctionsMeetTheirFormulas : Prop :=
  ∀ (a b : Word) (n : Nibble),
    (and16 a b).toNat = a.toNat &&& b.toNat ∧ (or16 a b).toNat = a.toNat ||| b.toNat ∧
    (xor16 a b).toNat = a.toNat ^^^ b.toNat ∧
    (shl16 a n).toNat = (a.toNat * 2 ^ n.toNat) % 65536 ∧ (shr16 a n).toNat = a.toNat / 2 ^ n.toNat ∧
    (sra16 a n).toNat =
      (a.toNat / 2 ^ n.toNat) ||| (if 32768 ≤ a.toNat then (65535 * 2 ^ (16 - n.toNat)) % 65536 else 0)

/-- The fields of a word are the same bits whatever its opcode (R59). -/
def Obligations.FieldsAreTheSameBitsOfEveryWord : Prop :=
  ∀ w : Word,
    (opcodeField w).toNat = w.toNat / 2048 ∧ (op1Field w).toNat = w.toNat / 256 % 8 ∧
    (op2Field w).toNat = w.toNat / 16 % 16 ∧ (op3Field w).toNat = w.toNat % 16
end

