-- ==== Sys2Proof/Laws/Decode.lean ====
section
/-! SUPPORT. Field extraction from a packed word, and the opcode map read backwards. -/

namespace Sys2Proof

theorem opcodeField_packFields (opc : Opcode) (op1 : Reg) (op2 op3 : Nibble) :
    opcodeField (packFields opc op1 op2 op3) = opc := by
  apply BitVec.eq_of_getLsbD_eq
  intro k hk
  interval_cases k <;> simp [opcodeField, packFields]

theorem op1Field_packFields (opc : Opcode) (op1 : Reg) (op2 op3 : Nibble) :
    op1Field (packFields opc op1 op2 op3) = op1 := by
  apply BitVec.eq_of_getLsbD_eq
  intro k hk
  interval_cases k <;> simp [op1Field, packFields]

theorem op2Field_packFields (opc : Opcode) (op1 : Reg) (op2 op3 : Nibble) :
    op2Field (packFields opc op1 op2 op3) = op2 := by
  apply BitVec.eq_of_getLsbD_eq
  intro k hk
  interval_cases k <;> simp [op2Field, packFields]

theorem op3Field_packFields (opc : Opcode) (op1 : Reg) (op2 op3 : Nibble) :
    op3Field (packFields opc op1 op2 op3) = op3 := by
  apply BitVec.eq_of_getLsbD_eq
  intro k hk
  interval_cases k <;> simp [op3Field, packFields]

theorem Mnemonic.mem_all (m : Mnemonic) : m ∈ Mnemonic.all := by cases m <;> decide

/-- The mnemonic found has the opcode looked for. -/
theorem OpcodeMap.code_of_mnemonicOf {map : OpcodeMap} {opc : Opcode} {m : Mnemonic}
    (h : map.mnemonicOf opc = some m) : map.code m = opc := by
  simpa using List.find?_some h

/-- No mnemonic is found exactly where the opcode is assigned to none. -/
theorem OpcodeMap.mnemonicOf_eq_none {map : OpcodeMap} {opc : Opcode} :
    map.mnemonicOf opc = none ↔ ∀ m, map.code m ≠ opc := by
  simp only [OpcodeMap.mnemonicOf, List.find?_eq_none, beq_iff_eq]
  exact ⟨fun h m => h m (Mnemonic.mem_all m), fun h m _ => h m⟩

/-- Under an injective map the mnemonic found for its own opcode is itself. -/
theorem OpcodeMap.mnemonicOf_code {map : OpcodeMap} (hinj : map.Injective) (m : Mnemonic) :
    map.mnemonicOf (map.code m) = some m := by
  cases h : map.mnemonicOf (map.code m) with
  | none => exact absurd rfl (OpcodeMap.mnemonicOf_eq_none.1 h m)
  | some n =>
    have hcode := OpcodeMap.code_of_mnemonicOf h
    rw [List.inj_on_of_nodup_map hinj (Mnemonic.mem_all n) (Mnemonic.mem_all m) hcode]

end Sys2Proof
end

