-- ==== Sys2Proof/Laws/Memory.lean ====
section
/-! SUPPORT. Memories: reads after writes, and the canonical form that every memory operation keeps. -/

namespace Sys2Proof.Machine

@[simp] theorem Memory.read_nil (a : Nat) : Memory.read [] a = Memory.unwritten := rfl

/-- The canonical form from `lo` on is one from every lower start. -/
theorem Memory.wfFrom_mono {m : Memory} {lo lo' : Nat} (hle : lo' ≤ lo) (h : Memory.wfFrom lo m = true) :
    Memory.wfFrom lo' m = true := by
  cases m with
  | nil => rfl
  | cons e rest =>
    simp only [Memory.wfFrom, Bool.and_eq_true, decide_eq_true_eq] at h ⊢
    exact ⟨⟨⟨by omega, h.1.1.2⟩, h.1.2⟩, h.2⟩

/-- Below its start a canonical memory lists nothing. -/
theorem Memory.read_below {m : Memory} {lo a : Nat} (h : Memory.wfFrom lo m = true) (ha : a < lo) :
    m.read a = Memory.unwritten := by
  induction m generalizing lo with
  | nil => rfl
  | cons e rest ih =>
    simp only [Memory.wfFrom, Bool.and_eq_true, decide_eq_true_eq] at h
    have hne : a ≠ e.1 := by omega
    simp only [Memory.read, hne, if_false]
    exact ih h.2 (by omega)

/-- A write leaves every other cell as it was, in every memory. -/
theorem Memory.read_write_other (m : Memory) {a b : Nat} (v : Word) (h : b ≠ a) : (m.write a v).read b = m.read b := by
  induction m with
  | nil => by_cases hv : v = Memory.unwritten <;> simp [Memory.write, Memory.read, hv, h]
  | cons e rest ih =>
    obtain ⟨k, u⟩ := e
    simp only [Memory.write]
    split
    · split <;> simp [Memory.read, h]
    · split
      · next hk =>
        subst hk
        split <;> simp [Memory.read, h]
      · simp only [Memory.read, ih]

/-- A canonical memory reads back what was written. -/
theorem Memory.read_write_same {m : Memory} {lo : Nat} (a : Nat) (v : Word) (h : Memory.wfFrom lo m = true) :
    (m.write a v).read a = v := by
  induction m generalizing lo with
  | nil => by_cases hv : v = Memory.unwritten <;> simp [Memory.write, Memory.read, hv]
  | cons e rest ih =>
    obtain ⟨k, u⟩ := e
    have hrest : Memory.wfFrom (k + 1) rest = true := by
      simp only [Memory.wfFrom, Bool.and_eq_true] at h
      exact h.2
    simp only [Memory.write]
    split
    · next hlt =>
      split
      · next hv =>
        have hne : a ≠ k := by omega
        simp only [Memory.read, hne, if_false, hv]
        exact Memory.read_below hrest (by omega)
      · simp [Memory.read]
    · split
      · next hk =>
        subst hk
        split
        · next hv =>
          rw [hv]
          exact Memory.read_below hrest (by omega)
        · simp [Memory.read]
      · next hk =>
        simp only [Memory.read, hk, if_false]
        exact ih hrest

/-- A write inside the memory keeps the canonical form. -/
theorem Memory.wfFrom_write {m : Memory} {lo a : Nat} (v : Word) (h : Memory.wfFrom lo m = true) (hlo : lo ≤ a)
    (ha : a < 256) : Memory.wfFrom lo (m.write a v) = true := by
  induction m generalizing lo with
  | nil => by_cases hv : v = Memory.unwritten <;> simp [Memory.write, Memory.wfFrom, hv, hlo, ha]
  | cons e rest ih =>
    obtain ⟨k, u⟩ := e
    have hall := h
    simp only [Memory.wfFrom, Bool.and_eq_true, decide_eq_true_eq] at h
    obtain ⟨⟨⟨hk, hk256⟩, hu⟩, hrest⟩ := h
    simp only [Memory.write]
    split
    · next hlt =>
      split
      · exact hall
      · next hv =>
        simp only [Memory.wfFrom, Bool.and_eq_true, decide_eq_true_eq]
        exact ⟨⟨⟨hlo, ha⟩, hv⟩, ⟨⟨by omega, hk256⟩, hu⟩, hrest⟩
    · next hlt =>
      split
      · next he =>
        subst he
        split
        · exact Memory.wfFrom_mono (by omega) hrest
        · next hv =>
          simp only [Memory.wfFrom, Bool.and_eq_true, decide_eq_true_eq]
          exact ⟨⟨⟨hlo, ha⟩, hv⟩, hrest⟩
      · next hne =>
        simp only [Memory.wfFrom, Bool.and_eq_true, decide_eq_true_eq]
        exact ⟨⟨⟨hk, hk256⟩, hu⟩, ih hrest (by omega)⟩

/-- A write of one cell keeps the canonical form. -/
theorem Memory.wf_write {m : Memory} {a : Nat} (v : Word) (h : m.wf = true) (ha : a < 256) :
    (m.write a v).wf = true :=
  Memory.wfFrom_write v h (Nat.zero_le a) ha

/-- Consecutive writes inside the memory keep the canonical form. -/
theorem Memory.wf_writeSeq {m : Memory} (ws : List Word) (a : Nat) (h : m.wf = true) (hlen : a + ws.length ≤ 256) :
    (m.writeSeq a ws).wf = true := by
  induction ws generalizing m a with
  | nil => exact h
  | cons w ws ih =>
    simp only [List.length_cons] at hlen
    exact ih (a + 1) (Memory.wf_write w h (by omega)) (by omega)

/-- Loading an image keeps instruction memory in canonical form. -/
theorem State.loadImage_wf {s t : State} {image : List Word} (h : s.loadImage image = .ok t) (hwf : s.imem.wf = true) :
    t.imem.wf = true := by
  simp only [State.loadImage] at h
  split at h
  · cases h
  · next hlen =>
    cases h
    have hsize : imemWords = 256 := rfl
    exact Memory.wf_writeSeq image 0 hwf (by omega)

/-- The memories of the reset state are in canonical form. -/
theorem State.reset_wf : State.reset.imem.wf = true ∧ State.reset.dmem.wf = true := ⟨rfl, rfl⟩

/-- Placing an instruction keeps instruction memory in canonical form. -/
theorem State.wf_write_slot {s : State} (a : Word) (v : Word) (h : s.imem.wf = true) (ha : a.toNat < imemWords) :
    (s.imem.write a.toNat v).wf = true :=
  Memory.wf_write v h ha

end Sys2Proof.Machine
end

