-- ==== Sys2Proof/Laws/State.lean ====
section
/-! SUPPORT. The fields of each state update, and register reads after them. -/

namespace Sys2Proof.Machine

/-! ### `State.writeReg` -/

@[simp] theorem State.writeReg_regs (s : State) (r : Reg) (v : Word) : (s.writeReg r v).regs = s.regs.set r.toNat v r.isLt := rfl

@[simp] theorem State.writeReg_pc (s : State) (r : Reg) (v : Word) : (s.writeReg r v).pc = s.pc := rfl

@[simp] theorem State.writeReg_nf (s : State) (r : Reg) (v : Word) : (s.writeReg r v).nf = s.nf := rfl

@[simp] theorem State.writeReg_zf (s : State) (r : Reg) (v : Word) : (s.writeReg r v).zf = s.zf := rfl

@[simp] theorem State.writeReg_cf (s : State) (r : Reg) (v : Word) : (s.writeReg r v).cf = s.cf := rfl

@[simp] theorem State.writeReg_imem (s : State) (r : Reg) (v : Word) : (s.writeReg r v).imem = s.imem := rfl

@[simp] theorem State.writeReg_dmem (s : State) (r : Reg) (v : Word) : (s.writeReg r v).dmem = s.dmem := rfl

@[simp] theorem State.writeReg_status (s : State) (r : Reg) (v : Word) : (s.writeReg r v).status = s.status := rfl

@[simp] theorem State.writeReg_params (s : State) (r : Reg) (v : Word) : (s.writeReg r v).params = s.params := rfl

/-! ### `State.setPc` -/

@[simp] theorem State.setPc_regs (s : State) (target : Word) : (s.setPc target).regs = s.regs := rfl

@[simp] theorem State.setPc_pc (s : State) (target : Word) : (s.setPc target).pc = target := rfl

@[simp] theorem State.setPc_nf (s : State) (target : Word) : (s.setPc target).nf = s.nf := rfl

@[simp] theorem State.setPc_zf (s : State) (target : Word) : (s.setPc target).zf = s.zf := rfl

@[simp] theorem State.setPc_cf (s : State) (target : Word) : (s.setPc target).cf = s.cf := rfl

@[simp] theorem State.setPc_imem (s : State) (target : Word) : (s.setPc target).imem = s.imem := rfl

@[simp] theorem State.setPc_dmem (s : State) (target : Word) : (s.setPc target).dmem = s.dmem := rfl

@[simp] theorem State.setPc_status (s : State) (target : Word) : (s.setPc target).status = s.status := rfl

@[simp] theorem State.setPc_params (s : State) (target : Word) : (s.setPc target).params = s.params := rfl

@[simp] theorem State.readReg_setPc (s : State) (target : Word) (q : Reg) : (s.setPc target).readReg q = s.readReg q := rfl

/-! ### `State.advance` -/

@[simp] theorem State.advance_regs (s : State) : (s.advance).regs = s.regs := rfl

@[simp] theorem State.advance_pc (s : State) : (s.advance).pc = s.nextPc := rfl

@[simp] theorem State.advance_nf (s : State) : (s.advance).nf = s.nf := rfl

@[simp] theorem State.advance_zf (s : State) : (s.advance).zf = s.zf := rfl

@[simp] theorem State.advance_cf (s : State) : (s.advance).cf = s.cf := rfl

@[simp] theorem State.advance_imem (s : State) : (s.advance).imem = s.imem := rfl

@[simp] theorem State.advance_dmem (s : State) : (s.advance).dmem = s.dmem := rfl

@[simp] theorem State.advance_status (s : State) : (s.advance).status = s.status := rfl

@[simp] theorem State.advance_params (s : State) : (s.advance).params = s.params := rfl

@[simp] theorem State.readReg_advance (s : State) (q : Reg) : (s.advance).readReg q = s.readReg q := rfl

/-! ### `State.raise` -/

@[simp] theorem State.raise_regs (s : State) (reason : FaultReason) : (s.raise reason).regs = s.regs := rfl

@[simp] theorem State.raise_pc (s : State) (reason : FaultReason) : (s.raise reason).pc = s.pc := rfl

@[simp] theorem State.raise_nf (s : State) (reason : FaultReason) : (s.raise reason).nf = s.nf := rfl

@[simp] theorem State.raise_zf (s : State) (reason : FaultReason) : (s.raise reason).zf = s.zf := rfl

@[simp] theorem State.raise_cf (s : State) (reason : FaultReason) : (s.raise reason).cf = s.cf := rfl

@[simp] theorem State.raise_imem (s : State) (reason : FaultReason) : (s.raise reason).imem = s.imem := rfl

@[simp] theorem State.raise_dmem (s : State) (reason : FaultReason) : (s.raise reason).dmem = s.dmem := rfl

@[simp] theorem State.raise_status (s : State) (reason : FaultReason) : (s.raise reason).status = .faulted reason := rfl

@[simp] theorem State.raise_params (s : State) (reason : FaultReason) : (s.raise reason).params = s.params := rfl

@[simp] theorem State.readReg_raise (s : State) (reason : FaultReason) (q : Reg) : (s.raise reason).readReg q = s.readReg q := rfl

/-! ### `State.halt` -/

@[simp] theorem State.halt_regs (s : State) : (s.halt).regs = s.regs := rfl

@[simp] theorem State.halt_pc (s : State) : (s.halt).pc = s.pc := rfl

@[simp] theorem State.halt_nf (s : State) : (s.halt).nf = s.nf := rfl

@[simp] theorem State.halt_zf (s : State) : (s.halt).zf = s.zf := rfl

@[simp] theorem State.halt_cf (s : State) : (s.halt).cf = s.cf := rfl

@[simp] theorem State.halt_imem (s : State) : (s.halt).imem = s.imem := rfl

@[simp] theorem State.halt_dmem (s : State) : (s.halt).dmem = s.dmem := rfl

@[simp] theorem State.halt_status (s : State) : (s.halt).status = .halted := rfl

@[simp] theorem State.halt_params (s : State) : (s.halt).params = s.params := rfl

@[simp] theorem State.readReg_halt (s : State) (q : Reg) : (s.halt).readReg q = s.readReg q := rfl

/-! ### `State.setNegZero` -/

@[simp] theorem State.setNegZero_regs (s : State) (r : Word) : (s.setNegZero r).regs = s.regs := rfl

@[simp] theorem State.setNegZero_pc (s : State) (r : Word) : (s.setNegZero r).pc = s.pc := rfl

@[simp] theorem State.setNegZero_nf (s : State) (r : Word) : (s.setNegZero r).nf = negFlag r := rfl

@[simp] theorem State.setNegZero_zf (s : State) (r : Word) : (s.setNegZero r).zf = zeroFlag r := rfl

@[simp] theorem State.setNegZero_cf (s : State) (r : Word) : (s.setNegZero r).cf = s.cf := rfl

@[simp] theorem State.setNegZero_imem (s : State) (r : Word) : (s.setNegZero r).imem = s.imem := rfl

@[simp] theorem State.setNegZero_dmem (s : State) (r : Word) : (s.setNegZero r).dmem = s.dmem := rfl

@[simp] theorem State.setNegZero_status (s : State) (r : Word) : (s.setNegZero r).status = s.status := rfl

@[simp] theorem State.setNegZero_params (s : State) (r : Word) : (s.setNegZero r).params = s.params := rfl

@[simp] theorem State.readReg_setNegZero (s : State) (r : Word) (q : Reg) : (s.setNegZero r).readReg q = s.readReg q := rfl

/-! ### `State.setCarry` -/

@[simp] theorem State.setCarry_regs (s : State) (c : Bool) : (s.setCarry c).regs = s.regs := rfl

@[simp] theorem State.setCarry_pc (s : State) (c : Bool) : (s.setCarry c).pc = s.pc := rfl

@[simp] theorem State.setCarry_nf (s : State) (c : Bool) : (s.setCarry c).nf = s.nf := rfl

@[simp] theorem State.setCarry_zf (s : State) (c : Bool) : (s.setCarry c).zf = s.zf := rfl

@[simp] theorem State.setCarry_cf (s : State) (c : Bool) : (s.setCarry c).cf = c := rfl

@[simp] theorem State.setCarry_imem (s : State) (c : Bool) : (s.setCarry c).imem = s.imem := rfl

@[simp] theorem State.setCarry_dmem (s : State) (c : Bool) : (s.setCarry c).dmem = s.dmem := rfl

@[simp] theorem State.setCarry_status (s : State) (c : Bool) : (s.setCarry c).status = s.status := rfl

@[simp] theorem State.setCarry_params (s : State) (c : Bool) : (s.setCarry c).params = s.params := rfl

@[simp] theorem State.readReg_setCarry (s : State) (c : Bool) (q : Reg) : (s.setCarry c).readReg q = s.readReg q := rfl

/-! ### Registers -/

@[simp] theorem State.readReg_writeReg_same (s : State) (r : Reg) (v : Word) : (s.writeReg r v).readReg r = v := by
  simp [State.readReg, State.writeReg]

theorem State.readReg_writeReg_other (s : State) {r q : Reg} (v : Word) (h : q ≠ r) :
    (s.writeReg r v).readReg q = s.readReg q := by
  have hn : r.toNat ≠ q.toNat := fun e => h (BitVec.eq_of_toNat_eq e.symm)
  simp [State.readReg, State.writeReg, hn]

/-- A register read after a register write, once for both cases. -/
theorem State.readReg_writeReg (s : State) (r q : Reg) (v : Word) :
    (s.writeReg r v).readReg q = if q = r then v else s.readReg q := by
  split
  · next h => subst h; exact State.readReg_writeReg_same s q v
  · next h => exact State.readReg_writeReg_other s v h

/-- Every register of a created state reads 0. -/
@[simp] theorem State.readReg_create (p : Params) (r : Reg) : (State.create p).readReg r = 0 := by
  simp [State.readReg, State.create]

@[simp] theorem State.nextPc_toNat (s : State) : s.nextPc.toNat = (s.pc.toNat + 1) % 65536 := by
  simp [State.nextPc, BitVec.toNat_add]

end Sys2Proof.Machine
end

