-- ==== Sys2Proof/Laws/Operations.lean ====
section
/-! SUPPORT. One lemma per shared operation, saying once everything it can do. -/

namespace Sys2Proof.Machine

/-! ### Operand fields -/

/-- A field of 0 to 7 names a register under every policy. -/
theorem regfield_of_lt {policy : RegfieldPolicy} {f : Nibble} (h : f.toNat < 8) :
    regfield policy f = .ok (f.setWidth 3) := by
  have : ¬ 8 ≤ f.toNat := by omega
  simp [regfield, this]

/-- Under low3 every field names a register. -/
theorem regfield_low3 (f : Nibble) : regfield .low3 f = .ok (f.setWidth 3) := by
  simp only [regfield]
  split <;> rfl

/-- Under fault a field of 8 to 15 is an illegal register index. -/
theorem regfield_fault {f : Nibble} (h : 8 ≤ f.toNat) :
    regfield .fault f = .error .illegalRegisterIndex := by
  simp [regfield, h]

/-- Everything `regfield` can answer. -/
theorem regfield_cases (policy : RegfieldPolicy) (f : Nibble) :
    (regfield policy f = .ok (f.setWidth 3) ∧ (f.toNat < 8 ∨ policy = .low3)) ∨
    (regfield policy f = .error .illegalRegisterIndex ∧ 8 ≤ f.toNat ∧ policy = .fault) := by
  by_cases h : f.toNat < 8
  · exact .inl ⟨regfield_of_lt h, .inl h⟩
  · cases policy with
    | low3 => exact .inl ⟨regfield_low3 f, .inr rfl⟩
    | fault => exact .inr ⟨regfield_fault (by omega), by omega, rfl⟩

/-- The low three bits of a field are its value modulo 8. -/
theorem setWidth3_eq_fieldReg (f : Nibble) : f.setWidth 3 = fieldReg f := by
  apply BitVec.eq_of_toNat_eq
  simp

/-- In a machine where the field names a register, `regfield` answers that register. -/
theorem regfield_of_namesReg {s : State} {f : Nibble} (h : NamesReg s f) :
    regfield s.params.regfieldPolicy f = .ok (fieldReg f) := by
  rw [← setWidth3_eq_fieldReg]
  rcases h with h | h
  · exact regfield_of_lt h
  · rw [h, regfield_low3]

/-- In a machine where the field names no register, `regfield` raises. -/
theorem regfield_of_not_namesReg {s : State} {f : Nibble} (h : ¬ NamesReg s f) :
    regfield s.params.regfieldPolicy f = .error .illegalRegisterIndex := by
  rcases regfield_cases s.params.regfieldPolicy f with ⟨_, hc⟩ | ⟨he, _⟩
  · exact absurd hc h
  · exact he

/-! ### Memory access -/

/-- Everything `MemRead` can answer. -/
theorem State.memRead_cases (s : State) (a : Word) :
    (a.toNat < 256 ∧ s.memRead a = .ok (s.dmem.read a.toNat)) ∨
    (256 ≤ a.toNat ∧ s.memRead a = .error .addressOutOfRange) := by
  by_cases h : 256 ≤ a.toNat
  · exact .inr ⟨h, by simp [State.memRead, h]⟩
  · exact .inl ⟨by omega, by simp [State.memRead, h]⟩

/-- Everything `MemWrite` can answer. -/
theorem State.memWrite_cases (s : State) (a v : Word) :
    (a.toNat < 256 ∧ s.memWrite a v = .ok { s with dmem := s.dmem.write a.toNat v }) ∨
    (256 ≤ a.toNat ∧ s.memWrite a v = .error .addressOutOfRange) := by
  by_cases h : 256 ≤ a.toNat
  · exact .inr ⟨h, by simp [State.memWrite, h]⟩
  · exact .inl ⟨by omega, by simp [State.memWrite, h]⟩

/-- Everything `IMemRead` can answer. -/
theorem State.imemRead_cases (s : State) (a : Word) :
    (a.toNat < 256 ∧ s.imemRead a = .ok (s.imem.read a.toNat)) ∨
    (256 ≤ a.toNat ∧ s.imemRead a = .error .addressOutOfRange) := by
  by_cases h : 256 ≤ a.toNat
  · exact .inr ⟨h, by simp [State.imemRead, h]⟩
  · exact .inl ⟨by omega, by simp [State.imemRead, h]⟩

/-! ### Instruction forms -/

@[simp] theorem complete_ok (s t : State) : complete s (.ok t) = .next t := rfl

@[simp] theorem complete_error (s : State) (reason : FaultReason) :
    complete s (.error reason) = .next (s.raise reason) := rfl

/-- Everything a shape R instruction without flags can do. -/
theorem opRegReg_cases (f : Word → Word → Word) (rA : Reg) (op2 op3 : Nibble) (s : State) :
    (NamesReg s op2 ∧ NamesReg s op3 ∧ opRegReg f rA op2 op3 s =
      .next (s.writeReg rA (f (s.readReg (fieldReg op2)) (s.readReg (fieldReg op3)))).advance) ∨
    (¬ (NamesReg s op2 ∧ NamesReg s op3) ∧ opRegReg f rA op2 op3 s = .next (s.raise .illegalRegisterIndex)) := by
  by_cases h2 : NamesReg s op2
  · by_cases h3 : NamesReg s op3
    · exact .inl ⟨h2, h3, by simp only [opRegReg, regfield_of_namesReg h2, regfield_of_namesReg h3]; rfl⟩
    · exact .inr ⟨fun h => h3 h.2, by
        simp only [opRegReg, regfield_of_namesReg h2, regfield_of_not_namesReg h3]; rfl⟩
  · exact .inr ⟨fun h => h2 h.1, by simp only [opRegReg, regfield_of_not_namesReg h2]; rfl⟩

/-- Everything ADDC and SUBC can do. -/
theorem opRegRegCarry_cases (f : Word → Word → Bool → Word × Bool) (rA : Reg) (op2 op3 : Nibble) (s : State) :
    (NamesReg s op2 ∧ NamesReg s op3 ∧ opRegRegCarry f rA op2 op3 s =
      .next ((s.writeReg rA (f (s.readReg (fieldReg op2)) (s.readReg (fieldReg op3)) s.cf).1).setCarry
        (f (s.readReg (fieldReg op2)) (s.readReg (fieldReg op3)) s.cf).2).advance) ∨
    (¬ (NamesReg s op2 ∧ NamesReg s op3) ∧
      opRegRegCarry f rA op2 op3 s = .next (s.raise .illegalRegisterIndex)) := by
  by_cases h2 : NamesReg s op2
  · by_cases h3 : NamesReg s op3
    · exact .inl ⟨h2, h3, by simp only [opRegRegCarry, regfield_of_namesReg h2, regfield_of_namesReg h3]; rfl⟩
    · exact .inr ⟨fun h => h3 h.2, by
        simp only [opRegRegCarry, regfield_of_namesReg h2, regfield_of_not_namesReg h3]; rfl⟩
  · exact .inr ⟨fun h => h2 h.1, by simp only [opRegRegCarry, regfield_of_not_namesReg h2]; rfl⟩

/-- Everything a shift can do. -/
theorem opShift_cases (f : Word → Nibble → Word) (rA : Reg) (op2 op3 : Nibble) (s : State) :
    (NamesReg s op2 ∧
      opShift f rA op2 op3 s = .next (s.writeReg rA (f (s.readReg (fieldReg op2)) op3)).advance) ∨
    (¬ NamesReg s op2 ∧ opShift f rA op2 op3 s = .next (s.raise .illegalRegisterIndex)) := by
  by_cases h2 : NamesReg s op2
  · exact .inl ⟨h2, by simp only [opShift, regfield_of_namesReg h2]; rfl⟩
  · exact .inr ⟨h2, by simp only [opShift, regfield_of_not_namesReg h2]; rfl⟩

/-- Everything CMP can do. -/
theorem execCmp_cases (op2 op3 : Nibble) (s : State) :
    (NamesReg s op2 ∧ NamesReg s op3 ∧ execCmp op2 op3 s =
      .next (s.setNegZero (sub16 (s.readReg (fieldReg op2)) (s.readReg (fieldReg op3)))).advance) ∨
    (¬ (NamesReg s op2 ∧ NamesReg s op3) ∧ execCmp op2 op3 s = .next (s.raise .illegalRegisterIndex)) := by
  by_cases h2 : NamesReg s op2
  · by_cases h3 : NamesReg s op3
    · exact .inl ⟨h2, h3, by simp only [execCmp, regfield_of_namesReg h2, regfield_of_namesReg h3]; rfl⟩
    · exact .inr ⟨fun h => h3 h.2, by
        simp only [execCmp, regfield_of_namesReg h2, regfield_of_not_namesReg h3]; rfl⟩
  · exact .inr ⟨fun h => h2 h.1, by simp only [execCmp, regfield_of_not_namesReg h2]; rfl⟩

/-- Everything LOAD can do. -/
theorem execLoad_cases (rA : Reg) (op2 op3 : Nibble) (s : State) :
    (NamesReg s op2 ∧ (effectiveAddress (s.readReg (fieldReg op2)) op3).toNat < 256 ∧ execLoad rA op2 op3 s =
      .next (s.writeReg rA (s.dmem.read (effectiveAddress (s.readReg (fieldReg op2)) op3).toNat)).advance) ∨
    (NamesReg s op2 ∧ 256 ≤ (effectiveAddress (s.readReg (fieldReg op2)) op3).toNat ∧
      execLoad rA op2 op3 s = .next (s.raise .addressOutOfRange)) ∨
    (¬ NamesReg s op2 ∧ execLoad rA op2 op3 s = .next (s.raise .illegalRegisterIndex)) := by
  by_cases h2 : NamesReg s op2
  · rcases s.memRead_cases (effectiveAddress (s.readReg (fieldReg op2)) op3) with ⟨hr, hm⟩ | ⟨hr, hm⟩
    · exact .inl ⟨h2, hr, by
        simp only [execLoad, regfield_of_namesReg h2, bind, Except.bind, hm]; rfl⟩
    · exact .inr (.inl ⟨h2, hr, by
        simp only [execLoad, regfield_of_namesReg h2, bind, Except.bind, hm]; rfl⟩)
  · exact .inr (.inr ⟨h2, by simp only [execLoad, regfield_of_not_namesReg h2]; rfl⟩)

/-- Everything STORE can do. -/
theorem execStore_cases (rA : Reg) (op2 op3 : Nibble) (s : State) :
    (NamesReg s op2 ∧ (effectiveAddress (s.readReg (fieldReg op2)) op3).toNat < 256 ∧ execStore rA op2 op3 s =
      .next (State.advance { s with
        dmem := s.dmem.write (effectiveAddress (s.readReg (fieldReg op2)) op3).toNat (s.readReg rA) })) ∨
    (NamesReg s op2 ∧ 256 ≤ (effectiveAddress (s.readReg (fieldReg op2)) op3).toNat ∧
      execStore rA op2 op3 s = .next (s.raise .addressOutOfRange)) ∨
    (¬ NamesReg s op2 ∧ execStore rA op2 op3 s = .next (s.raise .illegalRegisterIndex)) := by
  by_cases h2 : NamesReg s op2
  · rcases s.memWrite_cases (effectiveAddress (s.readReg (fieldReg op2)) op3) (s.readReg rA) with ⟨hr, hm⟩ | ⟨hr, hm⟩
    · exact .inl ⟨h2, hr, by
        simp only [execStore, regfield_of_namesReg h2, bind, Except.bind, hm]; rfl⟩
    · exact .inr (.inl ⟨h2, hr, by
        simp only [execStore, regfield_of_namesReg h2, bind, Except.bind, hm]; rfl⟩)
  · exact .inr (.inr ⟨h2, by simp only [execStore, regfield_of_not_namesReg h2]; rfl⟩)

/-! ### The step -/

theorem step_of_running {s : State} (h : s.status = .running) : step s = s.fetchExecute := by
  simp [step, h]

theorem step_of_halted {s : State} (h : s.status = .halted) : step s = .fault .runHalted := by
  simp [step, h]

theorem step_of_faulted {s : State} {reason : FaultReason} (h : s.status = .faulted reason) :
    step s = .fault (.runFaulted reason) := by
  simp [step, h]

/-- Everything fetch and decode can answer. -/
theorem State.fetchDecode_cases (s : State) :
    (256 ≤ s.pc.toNat ∧ s.fetchDecode = .error .addressOutOfRange) ∨
    (s.pc.toNat < 256 ∧ s.params.opcodeMap.mnemonicOf (opcodeField (s.imem.read s.pc.toNat)) = none ∧
      s.fetchDecode = .error .unknownOpcode) ∨
    (∃ i, s.Fetches i ∧ s.fetchDecode = .ok i) := by
  rcases s.imemRead_cases s.pc with ⟨hr, hm⟩ | ⟨hr, hm⟩
  · cases hd : decode s.params.opcodeMap (s.imem.read s.pc.toNat) with
    | error e =>
      refine .inr (.inl ⟨hr, ?_, by simp only [State.fetchDecode, hm, hd]⟩)
      simp only [decode] at hd
      split at hd
      · assumption
      · cases hd
    | ok i => exact .inr (.inr ⟨i, ⟨hr, hd⟩, by simp only [State.fetchDecode, hm, hd]⟩)
  · exact .inl ⟨hr, by simp only [State.fetchDecode, hm]⟩

end Sys2Proof.Machine
end

