-- ==== Sys2Proof/Laws/Exec.lean ====
section
/-! SUPPORT. What any instruction and any step can do, said once: the case analysis every whole-machine proof starts from. -/

namespace Sys2Proof.Machine

/-- Everything the execution of an instruction `i` in `s` can lead to. -/
inductive ExecEffect (i : Instr) (s : State) : State → Prop
  /-- A register-typed field names no register. -/
  | illegalRegister (hill : i.wellFormed = false) (hpolicy : s.params.regfieldPolicy = .fault) :
      ExecEffect i s (s.raise .illegalRegisterIndex)
  /-- A LOAD or STORE outside data memory. -/
  | outOfRange (rA : Reg) (op2 op3 : Nibble) (hi : i = .load rA op2 op3 ∨ i = .store rA op2 op3)
      (hnames : NamesReg s op2) (hea : 256 ≤ (effectiveAddress (s.readReg (fieldReg op2)) op3).toNat) :
      ExecEffect i s (s.raise .addressOutOfRange)
  /-- HALT. -/
  | halts (hi : i = .halt) : ExecEffect i s (if s.params.haltAdvancesPc then s.halt.advance else s.halt)
  /-- One register, the one op1 names. -/
  | writes (v : Word) (hm : i.mnemonic ∈ writesRegister) : ExecEffect i s (s.writeReg i.op1 v).advance
  /-- One register and CF. -/
  | writesCarry (v : Word) (c : Bool) (hm : i.mnemonic = .addc ∨ i.mnemonic = .subc) :
      ExecEffect i s ((s.writeReg i.op1 v).setCarry c).advance
  /-- NF and ZF of a CMP difference. -/
  | compares (v : Word) (hm : i.mnemonic = .cmp) : ExecEffect i s (s.setNegZero v).advance
  /-- One data-memory cell. -/
  | stores (rA : Reg) (op2 op3 : Nibble) (hi : i = .store rA op2 op3) (hnames : NamesReg s op2)
      (hea : (effectiveAddress (s.readReg (fieldReg op2)) op3).toNat < 256) :
      ExecEffect i s (State.advance { s with
        dmem := s.dmem.write (effectiveAddress (s.readReg (fieldReg op2)) op3).toNat (s.readReg rA) })
  /-- Only pc. -/
  | transfers (target : Word) (hi : i ≠ .halt) : ExecEffect i s (s.setPc target)

/-- A field that names no register is ill-formed, and the policy is to fault. -/
theorem not_namesReg {s : State} {f : Nibble} (h : ¬ NamesReg s f) :
    regFieldOk f = false ∧ s.params.regfieldPolicy = .fault := by
  simp only [NamesReg, not_or] at h
  refine ⟨by simpa [regFieldOk] using h.1, ?_⟩
  cases hp : s.params.regfieldPolicy with
  | fault => rfl
  | low3 => exact absurd hp h.2

/-- The same for the two fields of a shape R instruction. -/
theorem not_namesReg_and {s : State} {f g : Nibble} (h : ¬ (NamesReg s f ∧ NamesReg s g)) :
    (regFieldOk f && regFieldOk g) = false ∧ s.params.regfieldPolicy = .fault := by
  by_cases hf : NamesReg s f
  · have hg := not_namesReg (fun hg => h ⟨hf, hg⟩)
    simp [hg]
  · have hf := not_namesReg hf
    simp [hf]

/-- The effect of a shape R instruction without flags. -/
theorem opRegReg_effect {f : Word → Word → Word} {rA : Reg} {op2 op3 : Nibble} {i : Instr} {s t : State}
    (h : opRegReg f rA op2 op3 s = .next t) (hop1 : i.op1 = rA) (hm : i.mnemonic ∈ writesRegister)
    (hwf : i.wellFormed = (regFieldOk op2 && regFieldOk op3)) : ExecEffect i s t := by
  rcases opRegReg_cases f rA op2 op3 s with ⟨_, _, he⟩ | ⟨hn, he⟩
  · rw [he] at h; cases h; rw [← hop1]; exact .writes _ hm
  · rw [he] at h; cases h; exact .illegalRegister (hwf.trans (not_namesReg_and hn).1) (not_namesReg_and hn).2

/-- The effect of ADDC and SUBC. -/
theorem opRegRegCarry_effect {f : Word → Word → Bool → Word × Bool} {rA : Reg} {op2 op3 : Nibble} {i : Instr}
    {s t : State} (h : opRegRegCarry f rA op2 op3 s = .next t) (hop1 : i.op1 = rA)
    (hm : i.mnemonic = .addc ∨ i.mnemonic = .subc) (hwf : i.wellFormed = (regFieldOk op2 && regFieldOk op3)) :
    ExecEffect i s t := by
  rcases opRegRegCarry_cases f rA op2 op3 s with ⟨_, _, he⟩ | ⟨hn, he⟩
  · rw [he] at h; cases h; rw [← hop1]; exact .writesCarry _ _ hm
  · rw [he] at h; cases h; exact .illegalRegister (hwf.trans (not_namesReg_and hn).1) (not_namesReg_and hn).2

/-- The effect of a shift. -/
theorem opShift_effect {f : Word → Nibble → Word} {rA : Reg} {op2 op3 : Nibble} {i : Instr} {s t : State}
    (h : opShift f rA op2 op3 s = .next t) (hop1 : i.op1 = rA) (hm : i.mnemonic ∈ writesRegister)
    (hwf : i.wellFormed = regFieldOk op2) : ExecEffect i s t := by
  rcases opShift_cases f rA op2 op3 s with ⟨_, he⟩ | ⟨hn, he⟩
  · rw [he] at h; cases h; rw [← hop1]; exact .writes _ hm
  · rw [he] at h; cases h; exact .illegalRegister (hwf.trans (not_namesReg hn).1) (not_namesReg hn).2

/-- The effect of a branch. -/
theorem opBranch_effect {cond : Bool} {rA : Reg} {op2 op3 : Nibble} {i : Instr} {s t : State}
    (h : opBranch cond rA op2 op3 s = .next t) (hi : i ≠ .halt) : ExecEffect i s t := by
  cases h
  split
  · exact .transfers _ hi
  · exact .transfers _ hi

/-- If an instruction answers a next state, it is one of these. -/
theorem exec_effect {i : Instr} {s t : State} (h : exec i s = .next t) : ExecEffect i s t := by
  cases i with
  | nop => cases h; exact .transfers _ (by simp)
  | halt => cases h; exact .halts rfl
  | load rA op2 op3 =>
    rcases execLoad_cases rA op2 op3 s with ⟨_, _, he⟩ | ⟨hn, hea, he⟩ | ⟨hn, he⟩ <;>
      (simp only [exec, he] at h; cases h)
    · exact .writes _ (by simp [Instr.mnemonic, writesRegister])
    · exact .outOfRange rA op2 op3 (.inl rfl) hn hea
    · exact .illegalRegister (not_namesReg hn).1 (not_namesReg hn).2
  | store rA op2 op3 =>
    rcases execStore_cases rA op2 op3 s with ⟨hn, hea, he⟩ | ⟨hn, hea, he⟩ | ⟨hn, he⟩ <;>
      (simp only [exec, he] at h; cases h)
    · exact .stores rA op2 op3 rfl hn hea
    · exact .outOfRange rA op2 op3 (.inr rfl) hn hea
    · exact .illegalRegister (not_namesReg hn).1 (not_namesReg hn).2
  | cmp op2 op3 =>
    rcases execCmp_cases op2 op3 s with ⟨_, _, he⟩ | ⟨hn, he⟩ <;> (simp only [exec, he] at h; cases h)
    · exact .compares _ rfl
    · exact .illegalRegister (not_namesReg_and hn).1 (not_namesReg_and hn).2
  | ldih rA op2 op3 => cases h; exact .writes _ (by simp [Instr.mnemonic, writesRegister])
  | addi rA op2 op3 => cases h; exact .writes _ (by simp [Instr.mnemonic, writesRegister])
  | subi rA op2 op3 => cases h; exact .writes _ (by simp [Instr.mnemonic, writesRegister])
  | add rA op2 op3 => exact opRegReg_effect (f := add16) h rfl (by simp [Instr.mnemonic, writesRegister]) rfl
  | sub rA op2 op3 => exact opRegReg_effect (f := sub16) h rfl (by simp [Instr.mnemonic, writesRegister]) rfl
  | and rA op2 op3 => exact opRegReg_effect (f := and16) h rfl (by simp [Instr.mnemonic, writesRegister]) rfl
  | or rA op2 op3 => exact opRegReg_effect (f := or16) h rfl (by simp [Instr.mnemonic, writesRegister]) rfl
  | xor rA op2 op3 => exact opRegReg_effect (f := xor16) h rfl (by simp [Instr.mnemonic, writesRegister]) rfl
  | addc rA op2 op3 => exact opRegRegCarry_effect (f := addc) h rfl (by simp [Instr.mnemonic]) rfl
  | subc rA op2 op3 => exact opRegRegCarry_effect (f := subc) h rfl (by simp [Instr.mnemonic]) rfl
  | sll rA op2 op3 => exact opShift_effect (f := shl16) h rfl (by simp [Instr.mnemonic, writesRegister]) rfl
  | srl rA op2 op3 => exact opShift_effect (f := shr16) h rfl (by simp [Instr.mnemonic, writesRegister]) rfl
  | sla rA op2 op3 => exact opShift_effect (f := shl16) h rfl (by simp [Instr.mnemonic, writesRegister]) rfl
  | sra rA op2 op3 => exact opShift_effect (f := sra16) h rfl (by simp [Instr.mnemonic, writesRegister]) rfl
  | jump op2 op3 => cases h; exact .transfers _ (by simp)
  | jmpr rA op2 op3 => exact opBranch_effect (cond := true) h (by simp)
  | bz rA op2 op3 => exact opBranch_effect (cond := s.zf) h (by simp)
  | bnz rA op2 op3 => exact opBranch_effect (cond := !s.zf) h (by simp)
  | bn rA op2 op3 => exact opBranch_effect (cond := s.nf) h (by simp)
  | bnn rA op2 op3 => exact opBranch_effect (cond := !s.nf) h (by simp)
  | bc rA op2 op3 => exact opBranch_effect (cond := s.cf) h (by simp)
  | bnc rA op2 op3 => exact opBranch_effect (cond := !s.cf) h (by simp)

/-- If a step answers a next state, the status was Running and one stage of the step gave it. -/
theorem step_cases {s t : State} (h : step s = .next t) :
    s.status = .running ∧
      ((256 ≤ s.pc.toNat ∧ t = s.raise .addressOutOfRange) ∨
        (s.pc.toNat < 256 ∧ (∀ m, s.params.opcodeMap.code m ≠ opcodeField (s.imem.read s.pc.toNat)) ∧
          t = s.raise .unknownOpcode) ∨
        ∃ i, s.Fetches i ∧ exec i s = .next t) := by
  cases hs : s.status with
  | halted => rw [step_of_halted hs] at h; cases h
  | faulted reason => rw [step_of_faulted hs] at h; cases h
  | running =>
    refine ⟨rfl, ?_⟩
    rw [step_of_running hs] at h
    rcases s.fetchDecode_cases with ⟨hpc, he⟩ | ⟨hpc, hm, he⟩ | ⟨i, hi, he⟩ <;>
      simp only [State.fetchExecute, he] at h
    · cases h; exact .inl ⟨hpc, rfl⟩
    · cases h; exact .inr (.inl ⟨hpc, OpcodeMap.mnemonicOf_eq_none.1 hm, rfl⟩)
    · exact .inr (.inr ⟨i, hi, h⟩)

end Sys2Proof.Machine
end

