-- ==== Sys2Proof/Laws/PerInstr.lean ====
section
/-! SUPPORT. The family FieldsRebuild: an instruction is its mnemonic and fields, one lemma per constructor. -/

namespace Sys2Proof.Laws.FieldsRebuild

/-- The instruction is rebuilt from its mnemonic and the fields it encodes (30_encoding.md rules R61 and R76). -/
def Statement (i : Instr) : Prop := Instr.ofFields i.mnemonic i.op1 i.op2 i.op3 = i

end Sys2Proof.Laws.FieldsRebuild

theorem Sys2Proof.Laws.FieldsRebuild.nop :
    Sys2Proof.Laws.FieldsRebuild.Statement .nop := rfl

theorem Sys2Proof.Laws.FieldsRebuild.halt :
    Sys2Proof.Laws.FieldsRebuild.Statement .halt := rfl

theorem Sys2Proof.Laws.FieldsRebuild.load (rA : Sys2Proof.Reg) (rB imm4 : Sys2Proof.Nibble) :
    Sys2Proof.Laws.FieldsRebuild.Statement (.load rA rB imm4) := rfl

theorem Sys2Proof.Laws.FieldsRebuild.store (rA : Sys2Proof.Reg) (rB imm4 : Sys2Proof.Nibble) :
    Sys2Proof.Laws.FieldsRebuild.Statement (.store rA rB imm4) := rfl

theorem Sys2Proof.Laws.FieldsRebuild.ldih (rA : Sys2Proof.Reg) (immHi immLo : Sys2Proof.Nibble) :
    Sys2Proof.Laws.FieldsRebuild.Statement (.ldih rA immHi immLo) := rfl

theorem Sys2Proof.Laws.FieldsRebuild.add (rA : Sys2Proof.Reg) (rB rC : Sys2Proof.Nibble) :
    Sys2Proof.Laws.FieldsRebuild.Statement (.add rA rB rC) := rfl

theorem Sys2Proof.Laws.FieldsRebuild.addi (rA : Sys2Proof.Reg) (immHi immLo : Sys2Proof.Nibble) :
    Sys2Proof.Laws.FieldsRebuild.Statement (.addi rA immHi immLo) := rfl

theorem Sys2Proof.Laws.FieldsRebuild.addc (rA : Sys2Proof.Reg) (rB rC : Sys2Proof.Nibble) :
    Sys2Proof.Laws.FieldsRebuild.Statement (.addc rA rB rC) := rfl

theorem Sys2Proof.Laws.FieldsRebuild.sub (rA : Sys2Proof.Reg) (rB rC : Sys2Proof.Nibble) :
    Sys2Proof.Laws.FieldsRebuild.Statement (.sub rA rB rC) := rfl

theorem Sys2Proof.Laws.FieldsRebuild.subi (rA : Sys2Proof.Reg) (immHi immLo : Sys2Proof.Nibble) :
    Sys2Proof.Laws.FieldsRebuild.Statement (.subi rA immHi immLo) := rfl

theorem Sys2Proof.Laws.FieldsRebuild.subc (rA : Sys2Proof.Reg) (rB rC : Sys2Proof.Nibble) :
    Sys2Proof.Laws.FieldsRebuild.Statement (.subc rA rB rC) := rfl

theorem Sys2Proof.Laws.FieldsRebuild.cmp (rB rC : Sys2Proof.Nibble) :
    Sys2Proof.Laws.FieldsRebuild.Statement (.cmp rB rC) := rfl

theorem Sys2Proof.Laws.FieldsRebuild.and (rA : Sys2Proof.Reg) (rB rC : Sys2Proof.Nibble) :
    Sys2Proof.Laws.FieldsRebuild.Statement (.and rA rB rC) := rfl

theorem Sys2Proof.Laws.FieldsRebuild.or (rA : Sys2Proof.Reg) (rB rC : Sys2Proof.Nibble) :
    Sys2Proof.Laws.FieldsRebuild.Statement (.or rA rB rC) := rfl

theorem Sys2Proof.Laws.FieldsRebuild.xor (rA : Sys2Proof.Reg) (rB rC : Sys2Proof.Nibble) :
    Sys2Proof.Laws.FieldsRebuild.Statement (.xor rA rB rC) := rfl

theorem Sys2Proof.Laws.FieldsRebuild.sll (rA : Sys2Proof.Reg) (rB imm4 : Sys2Proof.Nibble) :
    Sys2Proof.Laws.FieldsRebuild.Statement (.sll rA rB imm4) := rfl

theorem Sys2Proof.Laws.FieldsRebuild.srl (rA : Sys2Proof.Reg) (rB imm4 : Sys2Proof.Nibble) :
    Sys2Proof.Laws.FieldsRebuild.Statement (.srl rA rB imm4) := rfl

theorem Sys2Proof.Laws.FieldsRebuild.sla (rA : Sys2Proof.Reg) (rB imm4 : Sys2Proof.Nibble) :
    Sys2Proof.Laws.FieldsRebuild.Statement (.sla rA rB imm4) := rfl

theorem Sys2Proof.Laws.FieldsRebuild.sra (rA : Sys2Proof.Reg) (rB imm4 : Sys2Proof.Nibble) :
    Sys2Proof.Laws.FieldsRebuild.Statement (.sra rA rB imm4) := rfl

theorem Sys2Proof.Laws.FieldsRebuild.jump (immHi immLo : Sys2Proof.Nibble) :
    Sys2Proof.Laws.FieldsRebuild.Statement (.jump immHi immLo) := rfl

theorem Sys2Proof.Laws.FieldsRebuild.jmpr (rA : Sys2Proof.Reg) (immHi immLo : Sys2Proof.Nibble) :
    Sys2Proof.Laws.FieldsRebuild.Statement (.jmpr rA immHi immLo) := rfl

theorem Sys2Proof.Laws.FieldsRebuild.bz (rA : Sys2Proof.Reg) (immHi immLo : Sys2Proof.Nibble) :
    Sys2Proof.Laws.FieldsRebuild.Statement (.bz rA immHi immLo) := rfl

theorem Sys2Proof.Laws.FieldsRebuild.bnz (rA : Sys2Proof.Reg) (immHi immLo : Sys2Proof.Nibble) :
    Sys2Proof.Laws.FieldsRebuild.Statement (.bnz rA immHi immLo) := rfl

theorem Sys2Proof.Laws.FieldsRebuild.bn (rA : Sys2Proof.Reg) (immHi immLo : Sys2Proof.Nibble) :
    Sys2Proof.Laws.FieldsRebuild.Statement (.bn rA immHi immLo) := rfl

theorem Sys2Proof.Laws.FieldsRebuild.bnn (rA : Sys2Proof.Reg) (immHi immLo : Sys2Proof.Nibble) :
    Sys2Proof.Laws.FieldsRebuild.Statement (.bnn rA immHi immLo) := rfl

theorem Sys2Proof.Laws.FieldsRebuild.bc (rA : Sys2Proof.Reg) (immHi immLo : Sys2Proof.Nibble) :
    Sys2Proof.Laws.FieldsRebuild.Statement (.bc rA immHi immLo) := rfl

theorem Sys2Proof.Laws.FieldsRebuild.bnc (rA : Sys2Proof.Reg) (immHi immLo : Sys2Proof.Nibble) :
    Sys2Proof.Laws.FieldsRebuild.Statement (.bnc rA immHi immLo) := rfl
end

