-- ==== Sys2Proof/Tests/Slice0.lean ====
section
/-! SUPPORT. The model's own tests: ill-formed instructions, decoding of words written out from the spec, single steps of
the spec's vectors (95_test_vectors.md), the loader, the assembler, and a state meeting the hypotheses of each statement. -/

namespace Sys2Proof.Tests

open Sys2Proof Sys2Proof.Machine

/-- A reset state with some registers set. -/
def withRegs (rs : List (Reg × Word)) (s : State := State.reset) : State :=
  rs.foldl (fun t e => t.writeReg e.1 e.2) s

/-- The state after the one step that runs the word `w`, or the state before it where there is none. -/
def after (s : State) (w : Nat) : State :=
  match step (s.withFetchWord 16 w) with
  | .next t => t
  | .fault _ => s
  | .refused _ => s

/-- A reset state whose register fields keep their low three bits. -/
def low3State : State := { State.reset with params.regfieldPolicy := .low3 }

/-! ### Well-formedness -/

theorem test_wellFormed_refuses_op2_of_shapeR : (Instr.add 1 8 0).wellFormed = false := by decide
theorem test_wellFormed_refuses_op3_of_shapeR : (Instr.cmp 0 9).wellFormed = false := by decide
theorem test_wellFormed_refuses_op2_of_shapeRI : (Instr.load 1 15 0).wellFormed = false := by decide
theorem test_wellFormed_accepts_immediates : (Instr.addi 7 8 15).wellFormed = true := by decide

/-! ### Decoding: words written out from 30_encoding.md rules R58 and R66 -/

theorem test_decode_nop : decodeTableWord 16 0b00000_111_1111_1111 = some (.nop) := by decide
theorem test_decode_halt : decodeTableWord 16 0b00001_111_1111_1111 = some (.halt) := by decide
theorem test_decode_load : decodeTableWord 16 0b00010_001_0010_0011 = some (.load 1 2 3) := by decide
theorem test_decode_store : decodeTableWord 16 0b00011_001_0010_1111 = some (.store 1 2 15) := by decide
theorem test_decode_ldih : decodeTableWord 16 0b10000_011_0001_0010 = some (.ldih 3 1 2) := by decide
theorem test_decode_add : decodeTableWord 16 0b01000_001_0010_0011 = some (.add 1 2 3) := by decide
theorem test_decode_addi : decodeTableWord 16 0b01001_000_1111_0001 = some (.addi 0 15 1) := by decide
theorem test_decode_addc : decodeTableWord 16 0b10001_001_0010_0011 = some (.addc 1 2 3) := by decide
theorem test_decode_sub : decodeTableWord 16 0b01010_001_0010_0011 = some (.sub 1 2 3) := by decide
theorem test_decode_subi : decodeTableWord 16 0b01011_100_0000_0001 = some (.subi 4 0 1) := by decide
theorem test_decode_subc : decodeTableWord 16 0b10010_001_0010_0011 = some (.subc 1 2 3) := by decide
theorem test_decode_cmp : decodeTableWord 16 0b01100_111_0001_0010 = some (.cmp 1 2) := by decide
theorem test_decode_and : decodeTableWord 16 0b01101_001_0010_0011 = some (.and 1 2 3) := by decide
theorem test_decode_or : decodeTableWord 16 0b01110_001_0010_0011 = some (.or 1 2 3) := by decide
theorem test_decode_xor : decodeTableWord 16 0b01111_001_0010_0011 = some (.xor 1 2 3) := by decide
theorem test_decode_sll : decodeTableWord 16 0b00100_001_0010_0100 = some (.sll 1 2 4) := by decide
theorem test_decode_srl : decodeTableWord 16 0b00110_001_0010_0100 = some (.srl 1 2 4) := by decide
theorem test_decode_sla : decodeTableWord 16 0b00101_001_0010_0001 = some (.sla 1 2 1) := by decide
theorem test_decode_sra : decodeTableWord 16 0b00111_001_0010_1111 = some (.sra 1 2 15) := by decide
theorem test_decode_jump : decodeTableWord 16 0b11000_011_0001_0010 = some (.jump 1 2) := by decide
theorem test_decode_jmpr : decodeTableWord 16 0b11001_001_0000_0011 = some (.jmpr 1 0 3) := by decide
theorem test_decode_bz : decodeTableWord 16 0b11010_000_0000_0101 = some (.bz 0 0 5) := by decide
theorem test_decode_bnz : decodeTableWord 16 0b11011_111_0000_0010 = some (.bnz 7 0 2) := by decide
theorem test_decode_bn : decodeTableWord 16 0b11100_111_0000_0101 = some (.bn 7 0 5) := by decide
theorem test_decode_bnn : decodeTableWord 16 0b11101_000_0000_0101 = some (.bnn 0 0 5) := by decide
theorem test_decode_bc : decodeTableWord 16 0b11110_111_0000_1011 = some (.bc 7 0 11) := by decide
theorem test_decode_bnc : decodeTableWord 16 0b11111_111_1111_1111 = some (.bnc 7 15 15) := by decide

theorem test_decode_reserved_low : decode OpcodeMap.default 0x9800 = .error (.unknownOpcode 19) := by decide
theorem test_decode_reserved_high : decode OpcodeMap.default 0xBFFF = .error (.unknownOpcode 23) := by decide
theorem test_encode_add : encode OpcodeMap.default (.add 1 2 3) = 0x4123 := by decide
theorem test_encode_cmp : encode OpcodeMap.default (.cmp 1 2) = 0x6012 := by decide

/-! ### Single steps (95_test_vectors.md; the vector's id stands before each) -/

-- S1
theorem test_nop_advances :
    (after { State.reset with pc := 0x10 } 0x0000).pc = 0x11 := by decide
-- S3
theorem test_halt_keeps_pc :
    (fun t => (t.status, t.pc)) (after { State.reset with pc := 0x10 } 0x0800) = (.halted, 0x10) := by decide
-- S4
theorem test_halt_advances_pc_by_parameter :
    (fun t => (t.status, t.pc)) (after { State.reset with pc := 0x10, params.haltAdvancesPc := true } 0x0800) =
    (.halted, 0x11) := by decide
-- M1
theorem test_load :
    (fun t => (t.readReg 1, t.pc)) (after (withRegs [(2, 0x10)] { State.reset with dmem := [(0x13, 0xBEEF)] }) 0x1123) =
    (0xBEEF, 1) := by decide
-- M3
theorem test_load_out_of_range :
    (fun t => (t.status, t.pc)) (after (withRegs [(2, 0xF8)]) 0x1128) = (.faulted .addressOutOfRange, 0) := by decide
-- M5
theorem test_store :
    (after (withRegs [(1, 0x1234), (2, 0xF0)]) 0x192F).dmem = [(0xFF, 0x1234)] := by decide
-- M7
theorem test_store_out_of_range :
    (fun t => (t.status, t.dmem)) (after (withRegs [(1, 0x5555), (2, 0x100)]) 0x1920) =
    (.faulted .addressOutOfRange, []) := by decide
-- AR1
theorem test_ldih :
    (after (withRegs [(3, 0x34)]) 0x8312).readReg 3 = 0x1234 := by decide
-- AR2
theorem test_ldih_adds :
    (after (withRegs [(3, 0xF000)]) 0x8320).readReg 3 = 0x1000 := by decide
-- AR3
theorem test_add_wraps_without_carry :
    (fun t => (t.readReg 1, t.cf)) (after (withRegs [(2, 0xFFFF), (3, 1)]) 0x4123) = (0, false) := by decide
-- AR27
theorem test_add_under_low3 :
    (fun t => (t.readReg 1, t.pc)) (after (withRegs [(1, 3)] low3State) 0x4189) = (3, 1) := by decide
-- AR6
theorem test_addi_wraps :
    (after (withRegs [(0, 0xFFFF)]) 0x48FF).readReg 0 = 0xFE := by decide
-- AR8
theorem test_addc_maximum :
    (fun t => (t.readReg 1, t.cf)) (after (withRegs [(2, 0xFFFF), (3, 0xFFFF)] { State.reset with cf := true }) 0x8923) =
    (0xFFFF, true) := by decide
-- AR9
theorem test_addc_carry_in :
    (fun t => (t.readReg 1, t.cf, t.nf)) (after (withRegs [(2, 0x7FFF)] { State.reset with cf := true }) 0x8923) =
    (0x8000, false, false) := by decide
-- AR11
theorem test_sub_wraps :
    (fun t => (t.readReg 1, t.nf)) (after (withRegs [(3, 1)]) 0x5123) = (0xFFFF, false) := by decide
-- AR14
theorem test_subi :
    (after (withRegs [(0, 0x100)]) 0x58FF).readReg 0 = 1 := by decide
-- AR18
theorem test_subc_exact_zero :
    (fun t => (t.readReg 1, t.cf, t.zf)) (after (withRegs [(2, 5), (3, 4)] { State.reset with cf := true }) 0x9123) =
    (0, false, false) := by decide
-- AR19
theorem test_subc_minimum :
    (fun t => (t.readReg 1, t.cf)) (after (withRegs [(3, 0xFFFF)] { State.reset with cf := true }) 0x9123) = (0, true) := by decide
-- AR20
theorem test_cmp_equal :
    (fun t => (t.zf, t.nf)) (after (withRegs [(1, 5), (2, 5)]) 0x6012) = (true, false) := by decide
-- AR24
theorem test_cmp_keeps_carry :
    (fun t => (t.zf, t.nf, t.cf))
    (after (withRegs [(1, 0xFFFF), (2, 1)] { State.reset with nf := true, zf := true, cf := true }) 0x6012) =
    (false, true, true) := by decide
-- LS1
theorem test_and :
    (after (withRegs [(2, 0xF0F0), (3, 0xFF00)]) 0x6923).readReg 1 = 0xF000 := by decide
-- LS2
theorem test_or :
    (after (withRegs [(2, 0xF0F0), (3, 0x0F00)]) 0x7123).readReg 1 = 0xFFF0 := by decide
-- LS3
theorem test_xor :
    (after (withRegs [(2, 0xFFFF), (3, 0x1234)]) 0x7923).readReg 1 = 0xEDCB := by decide
-- LS7
theorem test_sll_loses_the_top :
    (fun t => (t.readReg 1, t.cf)) (after (withRegs [(2, 3)]) 0x212F) = (0x8000, false) := by decide
-- LS8
theorem test_sla :
    (after (withRegs [(2, 0xC001)]) 0x2921).readReg 1 = 0x8002 := by decide
-- LS10
theorem test_srl :
    (after (withRegs [(2, 0x8000)]) 0x312F).readReg 1 = 1 := by decide
-- LS12
theorem test_sra_negative :
    (after (withRegs [(2, 0x8000)]) 0x392F).readReg 1 = 0xFFFF := by decide
-- LS15
theorem test_sra_by_zero :
    (after (withRegs [(2, 0x8001)]) 0x3920).readReg 1 = 0x8001 := by decide
-- CT1
theorem test_jump :
    (after { State.reset with pc := 0x40 } 0xC012).pc = 0x12 := by decide
-- CT5
theorem test_jmpr_wraps :
    (after (withRegs [(1, 0xFFFF)]) 0xC901).pc = 0 := by decide
-- CT6
theorem test_jmpr_out_of_range :
    (fun t => (t.pc, t.status)) (after (withRegs [(1, 0x100)]) 0xC900) = (0x100, .running) := by decide
-- CT8
theorem test_bz_taken :
    (after (withRegs [(0, 0x10)] { State.reset with zf := true, pc := 0x30 }) 0xD005).pc = 0x15 := by decide
-- CT9
theorem test_bz_not_taken :
    (after (withRegs [(0, 0x10)] { State.reset with pc := 0x30 }) 0xD005).pc = 0x31 := by decide
-- CT10
theorem test_bnz_taken :
    (after (withRegs [(0, 0x10)] { State.reset with pc := 0x30 }) 0xD805).pc = 0x15 := by decide
-- CT11
theorem test_bnz_not_taken :
    (after (withRegs [(0, 0x10)] { State.reset with zf := true, pc := 0x30 }) 0xD805).pc = 0x31 := by decide
-- CT12
theorem test_bn_taken :
    (after (withRegs [(0, 0x10)] { State.reset with nf := true, pc := 0x30 }) 0xE005).pc = 0x15 := by decide
-- CT13
theorem test_bn_not_taken :
    (after (withRegs [(0, 0x10)] { State.reset with pc := 0x30 }) 0xE005).pc = 0x31 := by decide
-- CT14
theorem test_bnn_taken :
    (after (withRegs [(0, 0x10)] { State.reset with pc := 0x30 }) 0xE805).pc = 0x15 := by decide
-- CT15
theorem test_bnn_not_taken :
    (after (withRegs [(0, 0x10)] { State.reset with nf := true, pc := 0x30 }) 0xE805).pc = 0x31 := by decide
-- CT16
theorem test_bc_taken :
    (after (withRegs [(0, 0x10)] { State.reset with cf := true, pc := 0x30 }) 0xF005).pc = 0x15 := by decide
-- CT17
theorem test_bc_not_taken :
    (after (withRegs [(0, 0x10)] { State.reset with pc := 0x30 }) 0xF005).pc = 0x31 := by decide
-- CT18
theorem test_bnc_taken :
    (after { State.reset with pc := 0x30 } 0xFFFF).pc = 0xFF := by decide
-- CT19
theorem test_bnc_not_taken :
    (after { State.reset with cf := true, pc := 0x30 } 0xFFFF).pc = 0x31 := by decide
-- F2
theorem test_unknown_opcode :
    (fun t => (t.status, t.pc, t.readReg 1)) (after (withRegs [(1, 0x1234)] { State.reset with pc := 5 }) 0xBFFF) =
    (.faulted .unknownOpcode, 5, 0x1234) := by decide
-- F4
theorem test_register_field_before_address :
    (after State.reset 0x1181).status = .faulted .illegalRegisterIndex := by decide
-- F3
theorem test_fetch_out_of_range :
    step { State.reset with pc := 0x100 } =
    .next { State.reset with pc := 0x100, status := .faulted .addressOutOfRange } := rfl
-- S6
theorem test_no_step_when_halted :
    step { State.reset with status := .halted } = .fault .runHalted := rfl

/-! ### Image loader, diagnostics, assembler (95_test_vectors.md) -/

-- IM1
theorem test_image_little : imageWords .little [0x05, 0x48, 0x03, 0x48, 0x00, 0x08] = .ok [0x4805, 0x4803, 0x0800] := by
  decide
-- IM2
theorem test_image_big : imageWords .big [0x05, 0x48, 0x03, 0x48, 0x00, 0x08] = .ok [0x0548, 0x0348, 0x0008] := by
  decide
-- IM3
theorem test_image_odd : imageWords .big [1, 2, 3, 4, 5] = .error .oddLength := by decide
-- IM1, the first two words in place
theorem test_load_image : (State.reset.loadImage [0x4805, 0, 0x0800]).map (·.imem) = .ok [(0, 0x4805), (2, 0x0800)] := by
  decide
-- 60_exceptions.md rule R163
theorem test_projection_of_load :
    ((withRegs [(2, 0x10)] { State.reset with dmem := [(0x13, 0xBEEF)] }).withFetchWord 16 0x1123).currentInstr =
      some { word := 0x1123, mnemonic := some .load, cell := some (0x13, 0xBEEF) } := by decide
-- A2
theorem test_assemble_masks_immediates :
    assembleLine OpcodeMap.default ['A', 'D', 'D', 'I', ' ', 'g', 'r', '0', ',', ' ', '-', '1', ',', ' ', '1', '7'] =
      .ok (some 0x48F1) := by decide
-- A4
theorem test_assemble_three_operand_cmp :
    assembleLine OpcodeMap.default ['C', 'M', 'P', ' ', 'g', 'r', '7', ',', 'g', 'r', '1', ',', 'g', 'r', '2'] =
      .ok (some 0x6712) := by decide
-- 30_encoding.md rule R72, against vector A11 (log entry 16)
theorem test_assemble_number_for_register :
    assembleLine OpcodeMap.default ['J', 'U', 'M', 'P', ' ', '3', ',', ' ', '1', ',', ' ', '2'] =
      .error .unresolvedRegister := by decide
-- A12
theorem test_assemble_unresolved_register :
    assembleLine OpcodeMap.default ['A', 'D', 'D', ' ', 'g', 'r', '8', ',', 'g', 'r', '1', ',', 'g', 'r', '2'] =
      .error .unresolvedRegister := by decide
-- A13
theorem test_assemble_unknown_mnemonic :
    assemble OpcodeMap.default [['N', 'O', 'P'], [], ['F', 'O', 'O', ' ', 'g', 'r', '1']] =
      .error { line := 3, error := .unknownMnemonic } := by decide
-- D5
theorem test_disassemble_low3 :
    disassemble OpcodeMap.default .low3 0x4189 =
      ['A', 'D', 'D', ' ', 'g', 'r', '1', ',', ' ', 'g', 'r', '0', ',', ' ', 'g', 'r', '1'] := by decide
-- D7
theorem test_disassemble_jump :
    disassemble OpcodeMap.default .fault 0xC512 = ['J', 'U', 'M', 'P', ' ', '1', ',', ' ', '2'] := by decide

/-! ### States that meet the hypotheses of the statements -/

/-- The default map is injective: the hypothesis of every `Encodes` clause, of DecodeOfEncodeIsTheInstruction and of
AssemblyOfDisassemblyIsTheWord. -/
theorem witness_injective_map : OpcodeMap.default.Injective := by decide

/-- Both fields name registers, at the highest one: the completion clauses of the shape R statements, and
NegativeFlagIsSignedLessOnlyWithoutOverflow. -/
theorem witness_fields_name_registers : NamesReg State.reset 7 ∧ NamesReg State.reset 7 := by decide

/-- A field of 15 names a register under low3. -/
theorem witness_field_names_register_low3 : NamesReg low3State 15 := by decide

/-- The lowest field that names no register: the fault clauses of the shape R, shift, LOAD and STORE statements. -/
theorem witness_field_names_no_register : ¬ NamesReg State.reset 8 := by decide

/-- LOAD and STORE at the last cell. -/
theorem witness_last_data_cell :
    let s := withRegs [(2, 0xF0)]
    s.dmem.wf = true ∧ NamesReg s 2 ∧ (effectiveAddress (s.readReg (fieldReg 2)) 15).toNat = 255 := by decide

/-- LOAD and STORE one past the last cell. -/
theorem witness_first_address_out_of_range :
    let s := withRegs [(2, 0xF1)]
    s.dmem.wf = true ∧ NamesReg s 2 ∧ (effectiveAddress (s.readReg (fieldReg 2)) 15).toNat = 256 := by decide

/-- HaltEndsTheRun, both clauses on pc. -/
theorem witness_halt_parameter :
    State.reset.params.haltAdvancesPc = false ∧
      ({ State.reset with params.haltAdvancesPc := true } : State).params.haltAdvancesPc = true := by decide

/-- BranchesFollowTheirFlag and JmprGoesToRegisterPlusImmediate: a running state with each flag set, one with each clear,
and a taken target of exactly 256. -/
theorem witness_branch_conditions :
    let s := withRegs [(0, 0xFF)] { State.reset with zf := true, nf := true, cf := true }
    s.status = .running ∧ s.zf = true ∧ s.nf = true ∧ s.cf = true ∧ State.reset.zf = false ∧ State.reset.nf = false ∧
      State.reset.cf = false ∧ (branchTarget (s.readReg 0) 0 1).toNat = 256 := by decide

/-- CarryChainsCompute32Bits. -/
theorem witness_carry_chain :
    State.reset.cf = false ∧ (4 : Reg) ≠ 5 ∧ (4 : Reg) ≠ 1 ∧ (4 : Reg) ≠ 3 := by decide

/-- StepRunsDecodedInstruction, and the last clause of StepStagesInOrder, at the last instruction address. -/
theorem witness_fetches_at_the_last_address :
    let s := ({ State.reset with pc := 0xFF } : State).withFetchWord 16 0x4123
    s.status = .running ∧ s.Fetches (.add 1 2 3) ∧ (Instr.add 1 2 3).wellFormed = true ∧ s.pc.toNat = 255 := by decide

/-- StepStagesInOrder, the clause of a fetch fault: the first address out of range. -/
theorem witness_fetch_fault :
    let s : State := { State.reset with pc := 0x100 }
    s.status = .running ∧ 256 ≤ s.pc.toNat := by decide

/-- StepStagesInOrder, the clause of an unknown opcode. -/
theorem witness_reserved_opcode :
    let s := State.reset.withFetchWord 16 0x9800
    s.status = .running ∧ s.pc.toNat < 256 ∧ s.params.opcodeMap.mnemonicOf (opcodeField (s.imem.read s.pc.toNat)) = none := by
  decide

/-- The same as the statements put it: no mnemonic has the fetched opcode. -/
theorem witness_reserved_opcode_of_no_mnemonic :
    ∀ m, OpcodeMap.default.code m ≠ opcodeField 0x9800 := by
  intro m
  cases m <;> decide

/-- StepStagesInOrder and RegisterFieldPolicyDecidesIllFormedInstructions: an ill-formed instruction under fault. -/
theorem witness_ill_formed_instruction :
    let s := State.reset.withFetchWord 16 0x4180
    s.status = .running ∧ s.Fetches (.add 1 8 0) ∧ s.params.regfieldPolicy = .fault ∧
      (Instr.add 1 8 0).wellFormed = false := by decide

/-- The same under low3: an ill-formed instruction runs. -/
theorem witness_ill_formed_instruction_low3 :
    let s := low3State.withFetchWord 16 0x4180
    s.status = .running ∧ s.Fetches (.add 1 8 0) ∧ s.params.regfieldPolicy = .low3 ∧
      exec (.add 1 8 0) s = .next ((s.writeReg 1 0).advance) := ⟨by decide, by decide, by decide, rfl⟩

/-- RegisterFieldPolicyDecidesIllFormedInstructions, its last clause: a well-formed instruction that answers a state. -/
theorem witness_well_formed_instruction :
    (Instr.sub 1 7 7).wellFormed = true ∧ exec (.sub 1 7 7) State.reset = .next ((State.reset.writeReg 1 0).advance) :=
  ⟨by decide, rfl⟩

/-- FaultsArePrecise and FaultsHaveExactlyTheirCauses: a step that takes a fault. -/
theorem witness_step_faults :
    step (State.reset.withFetchWord 16 0x9800) =
      .next { State.reset.withFetchWord 16 0x9800 with status := .faulted .unknownOpcode } := rfl

/-- FaultsHaveExactlyTheirCauses: a step that takes no fault. -/
theorem witness_step_without_fault : step State.reset = .next { State.reset with pc := 1 } := rfl

/-- StepIsEnabledExactlyInRunning: a terminal status of each kind. -/
theorem witness_terminal_states :
    ({ State.reset with status := .halted } : State).status = .halted ∧
      ({ State.reset with status := .faulted .unknownOpcode } : State).status = .faulted .unknownOpcode := by decide

/-- FlagsChangeOnlyByTheirInstructions: a CMP that changes ZF, and a SUBC that changes CF. -/
theorem witness_flags_change :
    (after State.reset 0x6000).zf ≠ State.reset.zf ∧ (after (withRegs [(1, 1)]) 0x9001).cf ≠ State.reset.cf := by decide

/-- FlagsChangeOnlyByTheirInstructions, the NF alternative: a CMP of 0 with 1. -/
theorem witness_negative_flag_changes : (after (withRegs [(1, 1)]) 0x6001).nf ≠ State.reset.nf := by decide

/-- RegistersChangeOnlyAsDestination: an ADDI that changes a register. -/
theorem witness_register_changes : (after State.reset 0x4801).readReg 0 ≠ State.reset.readReg 0 := by decide

/-- UnreadRegistersHaveNoInfluence: STORE gr1, gr2, 0 does not read gr3. -/
theorem witness_unread_register : (3 : Reg) ∉ (Instr.store 1 2 0).readsRegs := by decide

/-- The same where the register is the destination: ADD gr1, gr2, gr3 does not read gr1, and it completes. -/
theorem witness_unread_destination :
    (1 : Reg) ∉ (Instr.add 1 2 3).readsRegs ∧ (1 : Reg) = (Instr.add 1 2 3).op1 ∧
      (Instr.add 1 2 3).mnemonic ∈ writesRegister ∧ (after State.reset 0x4123).pc ≠ State.reset.pc := by decide

/-- HaltParameterMovesOnlyTheFinalPc and AddressSpacesAreDisjoint: instructions that answer a next state. -/
theorem witness_next_state :
    exec .halt State.reset = .next { State.reset with status := .halted } ∧
      exec .nop State.reset = .next { State.reset with pc := 1 } := ⟨rfl, rfl⟩

/-- DataMemoryChangesOnlyByStore: a STORE that changes the last cell. -/
theorem witness_data_memory_changes :
    (withRegs [(1, 0x1234), (2, 0xF0)]).dmem.wf = true ∧
      (after (withRegs [(1, 0x1234), (2, 0xF0)]) 0x192F).dmem.read 255 ≠
        (withRegs [(1, 0x1234), (2, 0xF0)]).dmem.read 255 := by decide

/-- StoreThenLoadReturnsTheValue: a STORE and a LOAD of the last cell through different registers. -/
theorem witness_store_then_load :
    let s := withRegs [(1, 0x1234), (2, 0xF0), (3, 0xFF)]
    s.dmem.wf = true ∧ NamesReg s 2 ∧ NamesReg s 3 ∧ (effectiveAddress (s.readReg (fieldReg 2)) 15).toNat < 256 ∧
      effectiveAddress (s.readReg (fieldReg 3)) 0 = effectiveAddress (s.readReg (fieldReg 2)) 15 := by decide

/-- InvariantIsKeptByEveryStep: a state of the invariant with a flag set and data stored, and its step. -/
theorem witness_invariant :
    let s : State := { State.reset with nf := true, dmem := [(0, 1), (255, 2)] }
    s.Inv ∧ step s = .next { s with pc := 1 } := ⟨by decide, rfl⟩

/-- InvariantHoldsWhenARunStarts: a loaded image. -/
theorem witness_start_of_run :
    Params.default.opcodeMap.Injective ∧
      startOfRun Params.default [0x0800] = .ok { State.reset with imem := [(0, 0x0800)] } := ⟨by decide, rfl⟩

/-- RunStartsWithTheImageAndZeros: the longest image, and its first and last cell. -/
theorem witness_longest_image :
    (List.replicate 256 (1 : Word)).length ≤ 256 ∧ 255 < (List.replicate 256 (1 : Word)).length ∧
      (List.replicate 256 (1 : Word)).length ≤ 256 := by
  simp only [List.length_replicate]
  omega

/-- ImageFileLoadsWordsInItsByteOrder: an odd file, an even one, and one of 257 words. -/
theorem witness_image_files :
    [(0 : Byte)].length % 2 = 1 ∧ [(0 : Byte), 1].length % 2 = 0 ∧ (List.replicate 514 (0 : Byte)).length % 2 = 0 ∧
      256 < (List.replicate 257 (0 : Word)).length := by
  rw [List.length_replicate, List.length_replicate]
  decide

/-- EveryStepExplainsItsEnd: `witness_step_faults` takes a fault and `witness_next_state` halts. The step that does. -/
theorem witness_step_halts :
    step (State.reset.withFetchWord 16 0x0800) =
      .next { State.reset.withFetchWord 16 0x0800 with status := .halted } := rfl

/-- EveryEndIsExplainedByTheFinalState: the reset state is running. -/
theorem witness_running : State.reset.status = .running := by decide

/-- JumpToItselfNeverEnds: JUMP 15, 15 at address 255. -/
theorem witness_jump_to_itself :
    let s := ({ State.reset with pc := 0xFF } : State).withFetchWord 16 0xC0FF
    s.status = .running ∧ s.Fetches (.jump 15 15) ∧ s.pc.toNat = (15 : Nibble).toNat * 16 + (15 : Nibble).toNat := by
  decide

/-- EncodeOfDecodeIsTheCanonicalWord: a canonical word, and a word with an unused field. -/
theorem witness_canonical_and_other_word :
    decode OpcodeMap.default 0x6012 = .ok (.cmp 1 2) ∧ op1Field 0x6012 = 0 ∧
      decode OpcodeMap.default 0x6712 = .ok (.cmp 1 2) ∧ op1Field 0x6712 ≠ 0 := by decide

/-- The same for the words of NOP, whose low eleven bits are unused. -/
theorem witness_canonical_and_other_nop :
    decode OpcodeMap.default 0x0000 = .ok .nop ∧ decode OpcodeMap.default 0x0001 = .ok .nop := by decide

/-- PlacedInstructionIsTheNextStep. -/
theorem witness_placed_instruction :
    State.reset.imem.wf = true ∧
      decode State.reset.params.opcodeMap (BitVec.ofNat 16 0xFFFF) = .ok (.bnc 7 15 15) := by decide

/-- ProjectionShowsStateAndCurrentInstruction: its clauses, with pc at 255 and 256. -/
theorem witness_projection :
    let s := ({ State.reset with pc := 0xFF } : State).withFetchWord 16 0x1123
    s.pc.toNat < 256 ∧ s.Fetches (.load 1 2 3) ∧ 256 ≤ ({ State.reset with pc := 0x100 } : State).pc.toNat ∧
    (Instr.nop).mnemonic ≠ .load ∧ (Instr.nop).mnemonic ≠ .store ∧ State.reset.Fetches .nop := by decide

/-- ProjectionShowsStateAndCurrentInstruction, the clause of a word that is no instruction. -/
theorem witness_projection_of_no_instruction (i : Instr) : ¬ (State.reset.withFetchWord 16 0x9800).Fetches i := by
  rintro ⟨-, h⟩
  have hd : decode OpcodeMap.default 0x9800 = .error (.unknownOpcode 19) := by decide
  have he : decode OpcodeMap.default 0x9800 = .ok i := h
  rw [hd] at he
  cases he

/-- ImmediateTokensAreMasked. -/
theorem witness_natural_token : naturalOfText ['1', '7'] = some 17 := by decide

/-- OnlyRegisterNamesResolve, its second clause: gr8 is no register's name. -/
theorem witness_unresolved_name : ∀ r, ['g', 'r', '8'] ≠ regText r := by decide

/-- LinesWithAnUnresolvedFirstRegisterAreRefused: JUMP 3, 1, 2. -/
theorem witness_unresolved_first_operand :
    Mnemonic.jump.shape ≠ .shapeNone ∧ ∀ r, ['3'] ≠ regText r := by decide

/-- AssemblyOfDisassemblyIsTheWord. -/
theorem witness_assembled_word :
    OpcodeMap.default.Injective ∧ (Instr.cmp 7 7).wellFormed = true := by decide

end Sys2Proof.Tests
end

section
/-! SUPPORT. Proofs of the statements about the state (10_state.md): how a run starts, which instructions change flags and
registers, what CMP's NF means, and that a register an instruction does not read has no influence. -/

namespace Sys2Proof.Machine

/-! ### The start of a run -/

/-- Consecutive writes leave every cell before and after them as it was, in every memory. -/
theorem Memory.read_writeSeq_outside (m : Memory) (ws : List Word) {a b : Nat} (h : b < a ∨ a + ws.length ≤ b) :
    (m.writeSeq a ws).read b = m.read b := by
  induction ws generalizing m a with
  | nil => rfl
  | cons w ws ih =>
    simp only [List.length_cons] at h
    calc ((m.write a w).writeSeq (a + 1) ws).read b
        = (m.write a w).read b := ih _ (by omega)
      _ = m.read b := Memory.read_write_other m w (by omega)

/-- Consecutive writes into a canonical memory read back in order. -/
theorem Memory.read_writeSeq_inside {m : Memory} (ws : List Word) {a i : Nat} (hwf : m.wf = true)
    (hlen : a + ws.length ≤ 256) (hi : i < ws.length) : (m.writeSeq a ws).read (a + i) = ws.getD i 0 := by
  induction ws generalizing m a i with
  | nil => exact absurd hi (Nat.not_lt_zero i)
  | cons w ws ih =>
    simp only [List.length_cons] at hlen hi
    cases i with
    | zero =>
      calc ((m.write a w).writeSeq (a + 1) ws).read a
          = (m.write a w).read a := Memory.read_writeSeq_outside _ ws (by omega)
        _ = w := Memory.read_write_same a w hwf
    | succ i =>
      have hrest := ih (i := i) (Memory.wf_write w hwf (a := a) (by omega)) (a := a + 1) (by omega) (by omega)
      rwa [show a + 1 + i = a + (i + 1) by omega] at hrest

/-- Loading succeeds exactly for images that fit, and changes instruction memory alone. -/
theorem State.loadImage_eq_ok_iff {s t : State} {image : List Word} :
    s.loadImage image = .ok t ↔ image.length ≤ 256 ∧ t = { s with imem := s.imem.writeSeq 0 image } := by
  by_cases h : 256 < image.length
  · simp [State.loadImage, h]
  · simp [State.loadImage, h, Nat.le_of_not_lt h, eq_comm]

/-- A created state whose opcode map is injective meets the invariant. -/
theorem State.create_inv {p : Params} (hinj : p.opcodeMap.Injective) : (State.create p).Inv :=
  ⟨hinj, rfl, rfl, fun ⟨hnf, _⟩ => Bool.false_ne_true hnf⟩

/-- Loading an image keeps the invariant. -/
theorem State.loadImage_inv {s t : State} {image : List Word} (h : s.loadImage image = .ok t) (hinv : s.Inv) :
    t.Inv := by
  obtain ⟨hinj, himem, hdmem, hflags⟩ := hinv
  have hwf := State.loadImage_wf h himem
  obtain ⟨_, rfl⟩ := State.loadImage_eq_ok_iff.1 h
  exact ⟨hinj, hwf, hdmem, hflags⟩

/-- Settles O46: reset is a created state. -/
theorem resetIsAllZeroAndRunning : Obligations.ResetIsAllZeroAndRunning :=
  ⟨State.readReg_create _, rfl, rfl, rfl, rfl, Memory.read_nil, Memory.read_nil, rfl⟩

/-- Settles O36: creation establishes the invariant and loading keeps it. -/
theorem invariantHoldsWhenARunStarts : Obligations.InvariantHoldsWhenARunStarts := by
  refine ⟨State.create_inv (by decide), fun p image s hinj hload => ?_⟩
  exact State.loadImage_inv hload (State.create_inv hinj)

/-- Settles O47: the image is written into the empty instruction memory of a created state. -/
theorem runStartsWithTheImageAndZeros : Obligations.RunStartsWithTheImageAndZeros := by
  intro p image hlen
  have hinside : ∀ i, i < image.length → (Memory.writeSeq [] 0 image).read i = image.getD i 0 := fun i hi => by
    simpa using Memory.read_writeSeq_inside (m := []) image (a := 0) rfl (by omega) hi
  have houtside : ∀ i, image.length ≤ i → (Memory.writeSeq [] 0 image).read i = 0 := fun i hi =>
    Memory.read_writeSeq_outside [] image (by omega)
  exact ⟨_, State.loadImage_eq_ok_iff.2 ⟨hlen, rfl⟩, hinside, houtside, Memory.read_nil, State.readReg_create p,
    rfl, rfl, rfl, rfl, rfl, rfl⟩

/-! ### What changes flags and registers -/

/-- Settles O28, by what an instruction can do: only the effect of CMP writes NF and ZF, only that of ADDC and SUBC
writes CF. -/
theorem flagsChangeOnlyByTheirInstructions : Obligations.FlagsChangeOnlyByTheirInstructions := by
  intro i s t h
  cases exec_effect h with
  | compares v hm => exact ⟨fun _ => hm, fun hcf => absurd rfl hcf⟩
  | writesCarry v c hm => exact ⟨fun hnz => by simp at hnz, fun _ => hm⟩
  | halts hi => split <;> simp
  | illegalRegister | outOfRange | writes | stores | transfers => simp

/-- Settles O29, by what an instruction can do: a register is written only by the two effects that write op1. -/
theorem registersChangeOnlyAsDestination : Obligations.RegistersChangeOnlyAsDestination := by
  intro i s t r h hne
  cases exec_effect h with
  | writes v hm =>
    refine ⟨?_, hm⟩
    by_contra hr
    exact hne (by rw [State.readReg_advance, State.readReg_writeReg_other s v hr])
  | writesCarry v c hm =>
    refine ⟨?_, by rcases hm with hm | hm <;> simp [hm, writesRegister]⟩
    by_contra hr
    exact hne (by rw [State.readReg_advance, State.readReg_setCarry, State.readReg_writeReg_other s v hr])
  | halts hi => split at hne <;> exact absurd rfl hne
  | illegalRegister | outOfRange | compares | stores | transfers => exact absurd rfl hne

/-! ### NF after CMP -/

/-- Bit 15 of a difference is the sign of the exact signed difference brought into the range of 16 bits. -/
theorem negFlag_sub16 (a b : Word) : negFlag (sub16 a b) = decide ((a.toInt - b.toInt).bmod 65536 < 0) := by
  rw [negFlag, sub16, BitVec.msb_eq_toInt, BitVec.toInt_sub]

/-- The difference of two words keeps its sign in 16 bits exactly where it fits in them: where it does not fit, wrapping
moves it by 65536 across zero. -/
theorem bmod_toInt_sub_neg_iff (a b : Word) :
    ((a.toInt - b.toInt).bmod 65536 < 0 ↔ a.toInt - b.toInt < 0) ↔
      (-32768 ≤ a.toInt - b.toInt ∧ a.toInt - b.toInt ≤ 32767) := by
  have ha := a.toInt_lt
  have ha' := a.le_toInt
  have hb := b.toInt_lt
  have hb' := b.le_toInt
  rw [Int.bmod_def]
  split <;> omega

/-- Settles O20: CMP answers the sign of the wrapped difference. -/
theorem negativeFlagIsSignedLessOnlyWithoutOverflow : Obligations.NegativeFlagIsSignedLessOnlyWithoutOverflow := by
  intro s op2 op3 h2 h3 d
  obtain ⟨_, _, he⟩ := (execCmp_cases op2 op3 s).resolve_right fun h => h.1 ⟨h2, h3⟩
  refine ⟨_, he, ?_⟩
  rw [State.advance_nf, State.setNegZero_nf, negFlag_sub16, decide_eq_true_eq]
  exact bmod_toInt_sub_neg_iff _ _

/-! ### Registers that are not read -/

/-- An instruction that advances pc changes it, also where pc wraps. -/
theorem State.nextPc_ne_pc (s : State) : s.nextPc ≠ s.pc := by
  simp [State.nextPc]

/-- A data-memory read does not depend on the registers. -/
theorem State.memRead_writeReg (s : State) (r : Reg) (v a : Word) : (s.writeReg r v).memRead a = s.memRead a := rfl

/-- A second write to a register replaces the first. -/
theorem State.writeReg_writeReg_same (s : State) (r : Reg) (v w : Word) :
    (s.writeReg r v).writeReg r w = s.writeReg r w := by
  simp [State.writeReg, Vector.set_set]

/-- Writes to two registers commute. -/
theorem State.writeReg_comm (s : State) {r q : Reg} (v w : Word) (h : r ≠ q) :
    (s.writeReg r v).writeReg q w = (s.writeReg q w).writeReg r v := by
  have hn : r.toNat ≠ q.toNat := fun e => h (BitVec.eq_of_toNat_eq e)
  simp [State.writeReg, Vector.set_comm _ _ hn]

/-- The instruction `i`, run in `s` with the outcome `t`, completes and writes register `r`. -/
abbrev Overwrites (i : Instr) (s : State) (r : Reg) (t : State) : Prop :=
  r = i.op1 ∧ i.mnemonic ∈ writesRegister ∧ t.pc ≠ s.pc

/-- The outcomes `t` of `i` in `s` and `u` of `i` in `s` with `v` put into register `r`, where `r` has no influence:
either `r` is overwritten and the outcomes are the same, or it is not and they differ by the value put into it. -/
inductive UnreadOutcome (i : Instr) (s : State) (r : Reg) (v : Word) : State → State → Prop
  | overwritten (t : State) (h : Overwrites i s r t) : UnreadOutcome i s r v t t
  | kept (t : State) (h : ¬ Overwrites i s r t) : UnreadOutcome i s r v t (t.writeReg r v)

/-- Both answers are next states, and `r` has no influence on them. -/
def UnreadResult (i : Instr) (s : State) (r : Reg) (v : Word) (a b : Result) : Prop :=
  ∃ t u, a = .next t ∧ b = .next u ∧ UnreadOutcome i s r v t u

section
variable {i : Instr} {s : State} {r rA : Reg} {op2 op3 : Nibble}

/-- A fault leaves pc and every register, so it overwrites nothing. -/
theorem unread_raise (v : Word) (reason : FaultReason) :
    UnreadResult i s r v (.next (s.raise reason)) (.next ((s.writeReg r v).raise reason)) :=
  ⟨_, _, rfl, rfl, .kept _ fun ⟨_, _, hpc⟩ => hpc rfl⟩

/-- An instruction that writes no register overwrites none. -/
theorem unread_of_not_writes (v : Word) (t : State) (hm : i.mnemonic ∉ writesRegister) :
    UnreadResult i s r v (.next t) (.next (t.writeReg r v)) :=
  ⟨_, _, rfl, rfl, .kept _ fun ⟨_, hw, _⟩ => hm hw⟩

/-- An instruction that writes op1, and perhaps CF, with values on which `r` has no influence. -/
theorem unread_writeReg_setCarry (v w : Word) (c : Bool) (hop1 : i.op1 = rA) (hm : i.mnemonic ∈ writesRegister) :
    UnreadResult i s r v (.next ((s.writeReg rA w).setCarry c).advance)
      (.next (((s.writeReg r v).writeReg rA w).setCarry c).advance) := by
  subst hop1
  by_cases hr : r = i.op1
  · subst hr
    rw [State.writeReg_writeReg_same]
    exact ⟨_, _, rfl, rfl, .overwritten _ ⟨rfl, hm, s.nextPc_ne_pc⟩⟩
  · rw [State.writeReg_comm s v w hr]
    exact ⟨_, _, rfl, rfl, .kept ((s.writeReg i.op1 w).setCarry c).advance fun h => hr h.1⟩

/-- The same where CF is kept. -/
theorem unread_writeReg (v w : Word) (hop1 : i.op1 = rA) (hm : i.mnemonic ∈ writesRegister) :
    UnreadResult i s r v (.next (s.writeReg rA w).advance) (.next ((s.writeReg r v).writeReg rA w).advance) :=
  unread_writeReg_setCarry v w s.cf hop1 hm

/-- The check of a register-typed field does not read `r`; what follows it decides. -/
theorem unread_regfield {v : Word} {k k' : Reg → Except FaultReason State}
    (h : UnreadResult i s r v (complete s (k (fieldReg op2))) (complete (s.writeReg r v) (k' (fieldReg op2)))) :
    UnreadResult i s r v (complete s (regfield s.params.regfieldPolicy op2 >>= k))
      (complete (s.writeReg r v) (regfield (s.writeReg r v).params.regfieldPolicy op2 >>= k')) := by
  rw [State.writeReg_params]
  by_cases hn : NamesReg s op2
  · rw [regfield_of_namesReg hn]
    exact h
  · rw [regfield_of_not_namesReg hn]
    exact unread_raise v _

/-- Putting a value into a register outside a list changes no read of a register in the list. -/
theorem readReg_writeReg_of_not_mem {l : List Reg} (hr : r ∉ l) (v : Word) {q : Reg} (hq : q ∈ l) :
    (s.writeReg r v).readReg q = s.readReg q :=
  State.readReg_writeReg_other s v fun h => hr (h ▸ hq)

/-! One lemma per instruction form: its operands are read in registers other than `r`. -/

theorem opRegReg_unread (f : Word → Word → Word) (v : Word) (hr : r ∉ [fieldReg op2, fieldReg op3])
    (hop1 : i.op1 = rA) (hm : i.mnemonic ∈ writesRegister) :
    UnreadResult i s r v (opRegReg f rA op2 op3 s) (opRegReg f rA op2 op3 (s.writeReg r v)) := by
  refine unread_regfield (unread_regfield ?_)
  rw [readReg_writeReg_of_not_mem hr v (by simp), readReg_writeReg_of_not_mem hr v (by simp)]
  exact unread_writeReg v _ hop1 hm

theorem opRegRegCarry_unread (f : Word → Word → Bool → Word × Bool) (v : Word)
    (hr : r ∉ [fieldReg op2, fieldReg op3]) (hop1 : i.op1 = rA) (hm : i.mnemonic ∈ writesRegister) :
    UnreadResult i s r v (opRegRegCarry f rA op2 op3 s) (opRegRegCarry f rA op2 op3 (s.writeReg r v)) := by
  refine unread_regfield (unread_regfield ?_)
  rw [readReg_writeReg_of_not_mem hr v (by simp), readReg_writeReg_of_not_mem hr v (by simp)]
  exact unread_writeReg_setCarry v _ _ hop1 hm

theorem opShift_unread (f : Word → Nibble → Word) (v : Word) (hr : r ∉ [fieldReg op2])
    (hop1 : i.op1 = rA) (hm : i.mnemonic ∈ writesRegister) :
    UnreadResult i s r v (opShift f rA op2 op3 s) (opShift f rA op2 op3 (s.writeReg r v)) := by
  refine unread_regfield ?_
  rw [readReg_writeReg_of_not_mem hr v (by simp)]
  exact unread_writeReg v _ hop1 hm

theorem opRegImm_unread (f : Word → Word → Word) (v imm : Word) (hr : r ∉ [rA])
    (hop1 : i.op1 = rA) (hm : i.mnemonic ∈ writesRegister) :
    UnreadResult i s r v (opRegImm f rA imm s) (opRegImm f rA imm (s.writeReg r v)) := by
  rw [opRegImm, opRegImm, readReg_writeReg_of_not_mem hr v (by simp)]
  exact unread_writeReg v _ hop1 hm

theorem opBranch_unread (cond : Bool) (v : Word) (hr : r ∉ [rA]) (hm : i.mnemonic ∉ writesRegister) :
    UnreadResult i s r v (opBranch cond rA op2 op3 s) (opBranch cond rA op2 op3 (s.writeReg r v)) := by
  rw [opBranch, opBranch, readReg_writeReg_of_not_mem hr v (by simp)]
  cases cond with
  | true => exact unread_of_not_writes v (s.setPc _) hm
  | false => exact unread_of_not_writes v s.advance hm

theorem execCmp_unread (v : Word) (hr : r ∉ [fieldReg op2, fieldReg op3]) (hm : i.mnemonic ∉ writesRegister) :
    UnreadResult i s r v (execCmp op2 op3 s) (execCmp op2 op3 (s.writeReg r v)) := by
  refine unread_regfield (unread_regfield ?_)
  rw [readReg_writeReg_of_not_mem hr v (by simp), readReg_writeReg_of_not_mem hr v (by simp)]
  exact unread_of_not_writes v (s.setNegZero _).advance hm

theorem execLoad_unread (v : Word) (hr : r ∉ [fieldReg op2]) (hop1 : i.op1 = rA)
    (hm : i.mnemonic ∈ writesRegister) :
    UnreadResult i s r v (execLoad rA op2 op3 s) (execLoad rA op2 op3 (s.writeReg r v)) := by
  refine unread_regfield ?_
  rw [readReg_writeReg_of_not_mem hr v (by simp), State.memRead_writeReg]
  rcases s.memRead_cases (effectiveAddress (s.readReg (fieldReg op2)) op3) with ⟨_, he⟩ | ⟨_, he⟩
  · rw [he]
    exact unread_writeReg v _ hop1 hm
  · rw [he]
    exact unread_raise v _

theorem execStore_unread (v : Word) (hr : r ∉ [fieldReg op2, rA]) (hm : i.mnemonic ∉ writesRegister) :
    UnreadResult i s r v (execStore rA op2 op3 s) (execStore rA op2 op3 (s.writeReg r v)) := by
  refine unread_regfield ?_
  rw [readReg_writeReg_of_not_mem hr v (by simp), readReg_writeReg_of_not_mem hr v (by simp)]
  have hcases := (s.writeReg r v).memWrite_cases (effectiveAddress (s.readReg (fieldReg op2)) op3) (s.readReg rA)
  rcases s.memWrite_cases (effectiveAddress (s.readReg (fieldReg op2)) op3) (s.readReg rA) with ⟨hea, he⟩ | ⟨hea, he⟩
  · obtain ⟨_, he'⟩ := hcases.resolve_right fun h => by omega
    rw [he, he']
    exact unread_of_not_writes v (State.advance { s with dmem := _ }) hm
  · obtain ⟨_, he'⟩ := hcases.resolve_left fun h => by omega
    rw [he, he']
    exact unread_raise v _

/-- A register that an instruction does not read has no influence on its answer. -/
theorem exec_unread (v : Word) (hr : r ∉ i.readsRegs) : UnreadResult i s r v (exec i s) (exec i (s.writeReg r v)) := by
  cases i with
  | nop => exact unread_of_not_writes v s.advance (by decide)
  | halt =>
    cases hp : s.params.haltAdvancesPc with
    | true =>
      simp only [exec, execHalt, State.writeReg_params, hp, if_true]
      exact unread_of_not_writes v s.halt.advance (by decide)
    | false =>
      simp only [exec, execHalt, State.writeReg_params, hp]
      exact unread_of_not_writes v s.halt (by decide)
  | load rA op2 op3 => exact execLoad_unread v hr rfl (by simp [Instr.mnemonic, writesRegister])
  | store rA op2 op3 => exact execStore_unread v hr (by simp [Instr.mnemonic, writesRegister])
  | cmp op2 op3 => exact execCmp_unread v hr (by simp [Instr.mnemonic, writesRegister])
  | ldih rA op2 op3 => exact opRegImm_unread add16 v _ hr rfl (by simp [Instr.mnemonic, writesRegister])
  | addi rA op2 op3 => exact opRegImm_unread add16 v _ hr rfl (by simp [Instr.mnemonic, writesRegister])
  | subi rA op2 op3 => exact opRegImm_unread sub16 v _ hr rfl (by simp [Instr.mnemonic, writesRegister])
  | add rA op2 op3 => exact opRegReg_unread add16 v hr rfl (by simp [Instr.mnemonic, writesRegister])
  | sub rA op2 op3 => exact opRegReg_unread sub16 v hr rfl (by simp [Instr.mnemonic, writesRegister])
  | and rA op2 op3 => exact opRegReg_unread and16 v hr rfl (by simp [Instr.mnemonic, writesRegister])
  | or rA op2 op3 => exact opRegReg_unread or16 v hr rfl (by simp [Instr.mnemonic, writesRegister])
  | xor rA op2 op3 => exact opRegReg_unread xor16 v hr rfl (by simp [Instr.mnemonic, writesRegister])
  | addc rA op2 op3 => exact opRegRegCarry_unread addc v hr rfl (by simp [Instr.mnemonic, writesRegister])
  | subc rA op2 op3 => exact opRegRegCarry_unread subc v hr rfl (by simp [Instr.mnemonic, writesRegister])
  | sll rA op2 op3 => exact opShift_unread shl16 v hr rfl (by simp [Instr.mnemonic, writesRegister])
  | srl rA op2 op3 => exact opShift_unread shr16 v hr rfl (by simp [Instr.mnemonic, writesRegister])
  | sla rA op2 op3 => exact opShift_unread shl16 v hr rfl (by simp [Instr.mnemonic, writesRegister])
  | sra rA op2 op3 => exact opShift_unread sra16 v hr rfl (by simp [Instr.mnemonic, writesRegister])
  | jump op2 op3 => exact unread_of_not_writes v (s.setPc _) (by simp [Instr.mnemonic, writesRegister])
  | jmpr rA op2 op3 => exact opBranch_unread true v hr (by simp [Instr.mnemonic, writesRegister])
  | bz rA op2 op3 => exact opBranch_unread s.zf v hr (by simp [Instr.mnemonic, writesRegister])
  | bnz rA op2 op3 => exact opBranch_unread (!s.zf) v hr (by simp [Instr.mnemonic, writesRegister])
  | bn rA op2 op3 => exact opBranch_unread s.nf v hr (by simp [Instr.mnemonic, writesRegister])
  | bnn rA op2 op3 => exact opBranch_unread (!s.nf) v hr (by simp [Instr.mnemonic, writesRegister])
  | bc rA op2 op3 => exact opBranch_unread s.cf v hr (by simp [Instr.mnemonic, writesRegister])
  | bnc rA op2 op3 => exact opBranch_unread (!s.cf) v hr (by simp [Instr.mnemonic, writesRegister])

end

/-- Settles O30: the outcomes are equal, or differ by the value put into the register. -/
theorem unreadRegistersHaveNoInfluence : Obligations.UnreadRegistersHaveNoInfluence := by
  intro i s r v hr
  obtain ⟨t, u, ht, hu, hout⟩ := exec_unread (s := s) v hr
  refine ⟨t, u, ht, hu, ?_⟩
  cases hout with
  | overwritten h =>
    exact ⟨fun _ _ => rfl, ⟨rfl, rfl, rfl⟩, fun _ => rfl, fun _ => rfl, ⟨rfl, rfl⟩, rfl, (if_pos h).symm⟩
  | kept h =>
    have hother : SameRegsBut r t (t.writeReg r v) := fun _ hq => State.readReg_writeReg_other t v hq
    have hsame : (t.writeReg r v).readReg r = v := State.readReg_writeReg_same t r v
    exact ⟨hother, ⟨rfl, rfl, rfl⟩, fun _ => rfl, fun _ => rfl, ⟨rfl, rfl⟩, rfl, hsame.trans (if_neg h).symm⟩

end Sys2Proof.Machine
end

section
/-! SUPPORT. Proofs of the statements about the two memories (20_memory.md): instruction memory is constant in a run, the
two address spaces are disjoint, and data memory changes only by STORE and reads back what was stored. -/

namespace Sys2Proof.Machine

/-! ### What stays constant in a run -/

/-- What every step keeps holds after a run of any length in which it held at the start. -/
theorem State.runFor_induction {P : State → Prop} (hstep : ∀ s t, P s → step s = .next t → P t) (n : Nat) {s : State}
    (h : P s) : P (s.runFor n) := by
  induction n generalizing s with
  | zero => exact h
  | succ n ih =>
    simp only [State.runFor]
    split
    · next t ht => exact ih (hstep s t h ht)
    · exact h
    · exact h

/-- No instruction changes instruction memory or the parameters. -/
theorem exec_keeps_imem_params {i : Instr} {s t : State} (h : exec i s = .next t) :
    t.imem = s.imem ∧ t.params = s.params := by
  cases exec_effect h with
  | halts hi => split <;> exact ⟨rfl, rfl⟩
  | illegalRegister | outOfRange | writes | writesCarry | compares | stores | transfers => exact ⟨rfl, rfl⟩

/-- No step changes instruction memory or the parameters. -/
theorem step_keeps_imem_params {s t : State} (h : step s = .next t) : t.imem = s.imem ∧ t.params = s.params := by
  obtain ⟨_, ⟨_, rfl⟩ | ⟨_, _, rfl⟩ | ⟨i, _, hexec⟩⟩ := step_cases h
  · exact ⟨rfl, rfl⟩
  · exact ⟨rfl, rfl⟩
  · exact exec_keeps_imem_params hexec

/-- Settles O32, by induction on the run. -/
theorem instructionMemoryIsConstant : Obligations.InstructionMemoryIsConstant := by
  intro n s
  refine State.runFor_induction (P := fun u => u.imem = s.imem ∧ u.params = s.params) ?_ n ⟨rfl, rfl⟩
  rintro u t ⟨himem, hparams⟩ h
  obtain ⟨himem', hparams'⟩ := step_keeps_imem_params h
  exact ⟨himem'.trans himem, hparams'.trans hparams⟩

/-! ### Another instruction memory -/

/-- The state with another instruction memory. -/
def State.withImem (s : State) (m : Memory) : State := { s with imem := m }

/-- The answer with its next state, where it has one, given another instruction memory. -/
def resultWithImem (m : Memory) : Result → Result
  | .next t => .next (t.withImem m)
  | .fault r => .fault r
  | .refused r => .refused r

section
variable {s : State} {m : Memory} {rA : Reg} {op2 op3 : Nibble}

@[simp] theorem State.withImem_params : (s.withImem m).params = s.params := rfl

@[simp] theorem State.readReg_withImem (q : Reg) : (s.withImem m).readReg q = s.readReg q := rfl

/-- A data-memory write hands on the other instruction memory, and faults as before. -/
theorem State.memWrite_withImem (a v : Word) : (s.withImem m).memWrite a v = (s.memWrite a v).map (·.withImem m) := by
  simp only [State.memWrite]
  split <;> rfl

/-- Where an instruction begins with a read `x` that does not depend on instruction memory, what follows it decides. -/
theorem complete_bind_withImem {α : Type} (x : Except FaultReason α) {k k' : α → Except FaultReason State}
    (h : ∀ a, complete (s.withImem m) (k' a) = resultWithImem m (complete s (k a))) :
    complete (s.withImem m) (x >>= k') = resultWithImem m (complete s (x >>= k)) := by
  cases x with
  | error reason => rfl
  | ok a => exact h a

/-! One lemma per instruction form: its reads do not depend on instruction memory, and its writes keep the other one. -/

theorem opRegReg_withImem (f : Word → Word → Word) :
    opRegReg f rA op2 op3 (s.withImem m) = resultWithImem m (opRegReg f rA op2 op3 s) :=
  complete_bind_withImem (regfield s.params.regfieldPolicy op2) fun _ =>
    complete_bind_withImem (regfield s.params.regfieldPolicy op3) fun _ => rfl

theorem opRegRegCarry_withImem (f : Word → Word → Bool → Word × Bool) :
    opRegRegCarry f rA op2 op3 (s.withImem m) = resultWithImem m (opRegRegCarry f rA op2 op3 s) :=
  complete_bind_withImem (regfield s.params.regfieldPolicy op2) fun _ =>
    complete_bind_withImem (regfield s.params.regfieldPolicy op3) fun _ => rfl

theorem opShift_withImem (f : Word → Nibble → Word) :
    opShift f rA op2 op3 (s.withImem m) = resultWithImem m (opShift f rA op2 op3 s) :=
  complete_bind_withImem (regfield s.params.regfieldPolicy op2) fun _ => rfl

theorem opBranch_withImem (cond : Bool) :
    opBranch cond rA op2 op3 (s.withImem m) = resultWithImem m (opBranch cond rA op2 op3 s) := by
  cases cond <;> rfl

theorem execCmp_withImem : execCmp op2 op3 (s.withImem m) = resultWithImem m (execCmp op2 op3 s) :=
  complete_bind_withImem (regfield s.params.regfieldPolicy op2) fun _ =>
    complete_bind_withImem (regfield s.params.regfieldPolicy op3) fun _ => rfl

theorem execLoad_withImem : execLoad rA op2 op3 (s.withImem m) = resultWithImem m (execLoad rA op2 op3 s) :=
  complete_bind_withImem (regfield s.params.regfieldPolicy op2) fun b =>
    complete_bind_withImem (s.memRead (effectiveAddress (s.readReg b) op3)) fun _ => rfl

theorem execStore_withImem : execStore rA op2 op3 (s.withImem m) = resultWithImem m (execStore rA op2 op3 s) := by
  refine complete_bind_withImem (regfield s.params.regfieldPolicy op2) fun b => ?_
  rw [State.memWrite_withImem, State.readReg_withImem, State.readReg_withImem]
  cases s.memWrite (effectiveAddress (s.readReg b) op3) (s.readReg rA) <;> rfl

/-- The answer of an instruction does not depend on instruction memory, which it hands on. -/
theorem exec_withImem (i : Instr) : exec i (s.withImem m) = resultWithImem m (exec i s) := by
  cases i with
  | halt =>
    cases hp : s.params.haltAdvancesPc <;>
      (simp only [exec, execHalt, State.withImem_params, hp]; rfl)
  | load => exact execLoad_withImem
  | store => exact execStore_withImem
  | cmp => exact execCmp_withImem
  | nop | jump | ldih | addi | subi => rfl
  | add => exact opRegReg_withImem add16
  | sub => exact opRegReg_withImem sub16
  | and => exact opRegReg_withImem and16
  | or => exact opRegReg_withImem or16
  | xor => exact opRegReg_withImem xor16
  | addc => exact opRegRegCarry_withImem addc
  | subc => exact opRegRegCarry_withImem subc
  | sll => exact opShift_withImem shl16
  | srl => exact opShift_withImem shr16
  | sla => exact opShift_withImem shl16
  | sra => exact opShift_withImem sra16
  | jmpr => exact opBranch_withImem true
  | bz => exact opBranch_withImem s.zf
  | bnz => exact opBranch_withImem (!s.zf)
  | bn => exact opBranch_withImem s.nf
  | bnn => exact opBranch_withImem (!s.nf)
  | bc => exact opBranch_withImem s.cf
  | bnc => exact opBranch_withImem (!s.cf)

end

/-- Fetch and decode read no data memory. -/
theorem State.fetchDecode_withDmem (s : State) (m : Memory) :
    State.fetchDecode { s with dmem := m } = s.fetchDecode := rfl

/-- Settles O33: the answer under another instruction memory is the same answer with that memory in it. -/
theorem addressSpacesAreDisjoint : Obligations.AddressSpacesAreDisjoint := by
  refine ⟨fun i s t m h => ⟨(exec_keeps_imem_params h).1, ?_⟩, State.fetchDecode_withDmem⟩
  calc exec i (s.withImem m)
      = resultWithImem m (exec i s) := exec_withImem i
    _ = .next (t.withImem m) := by rw [h, resultWithImem]

/-! ### Data memory -/

/-- In a canonical data memory an instruction changes at most the cell that its STORE addresses. -/
theorem exec_changes_dmem {i : Instr} {s t : State} {a : Nat} (hwf : s.dmem.wf = true) (h : exec i s = .next t)
    (hne : t.dmem.read a ≠ s.dmem.read a) :
    ∃ rA op2 op3, i = .store rA op2 op3 ∧ NamesReg s op2 ∧ a < 256 ∧
      a = (effectiveAddress (s.readReg (fieldReg op2)) op3).toNat ∧ t.dmem.read a = s.readReg rA := by
  cases exec_effect h with
  | stores rA op2 op3 hi hnames hea =>
    have ha : a = (effectiveAddress (s.readReg (fieldReg op2)) op3).toNat := by
      by_contra hother
      exact hne (Memory.read_write_other s.dmem _ hother)
    subst ha
    exact ⟨rA, op2, op3, hi, hnames, hea, rfl, Memory.read_write_same _ _ hwf⟩
  | halts hi => split at hne <;> exact absurd rfl hne
  | illegalRegister | outOfRange | writes | writesCarry | compares | transfers => exact absurd rfl hne

/-- Settles O34: a fault of fetch or decode changes no cell, and an instruction only as `exec_changes_dmem` says. -/
theorem dataMemoryChangesOnlyByStore : Obligations.DataMemoryChangesOnlyByStore := by
  intro s t a hwf h hne
  obtain ⟨_, ⟨_, rfl⟩ | ⟨_, _, rfl⟩ | ⟨i, hfetch, hexec⟩⟩ := step_cases h
  · exact absurd rfl hne
  · exact absurd rfl hne
  · obtain ⟨rA, op2, op3, rfl, hstore⟩ := exec_changes_dmem hwf hexec hne
    exact ⟨rA, op2, op3, hfetch, hstore⟩

/-- A LOAD inside data memory writes the cell it addresses to its destination. -/
theorem exec_load_of_lt {s : State} {op2 op3 : Nibble} (rA : Reg) (hnames : NamesReg s op2)
    (hea : (effectiveAddress (s.readReg (fieldReg op2)) op3).toNat < 256) :
    exec (.load rA op2 op3) s =
      .next (s.writeReg rA (s.dmem.read (effectiveAddress (s.readReg (fieldReg op2)) op3).toNat)).advance := by
  rcases execLoad_cases rA op2 op3 s with ⟨_, _, he⟩ | ⟨_, hge, _⟩ | ⟨hn, _⟩
  · exact he
  · omega
  · exact absurd hnames hn

/-- A STORE inside data memory writes the register op1 names to the cell it addresses. -/
theorem exec_store_of_lt {s : State} {op2 op3 : Nibble} (rA : Reg) (hnames : NamesReg s op2)
    (hea : (effectiveAddress (s.readReg (fieldReg op2)) op3).toNat < 256) :
    exec (.store rA op2 op3) s = .next (State.advance { s with
      dmem := s.dmem.write (effectiveAddress (s.readReg (fieldReg op2)) op3).toNat (s.readReg rA) }) := by
  rcases execStore_cases rA op2 op3 s with ⟨_, _, he⟩ | ⟨_, hge, _⟩ | ⟨hn, _⟩
  · exact he
  · omega
  · exact absurd hnames hn

/-- Settles O35: STORE changes no register and no parameter, so LOAD addresses the cell just written. -/
theorem storeThenLoadReturnsTheValue : Obligations.StoreThenLoadReturnsTheValue := by
  intro s rA op2 op3 rD op2' op3' hwf hnames hnames' hea hsame
  refine ⟨_, _, exec_store_of_lt rA hnames hea, exec_load_of_lt rD hnames' (hsame ▸ hea), ?_⟩
  rw [State.readReg_advance, State.readReg_writeReg_same]
  calc (s.dmem.write (effectiveAddress (s.readReg (fieldReg op2)) op3).toNat (s.readReg rA)).read
        (effectiveAddress (s.readReg (fieldReg op2')) op3').toNat
      = (s.dmem.write (effectiveAddress (s.readReg (fieldReg op2)) op3).toNat (s.readReg rA)).read
        (effectiveAddress (s.readReg (fieldReg op2)) op3).toNat := by rw [hsame]
    _ = s.readReg rA := Memory.read_write_same _ _ hwf

end Sys2Proof.Machine
end

section
/-! SUPPORT. Proofs of the statements about encodings (30_encoding.md): a word is its four fields, decoding and encoding
undo each other on canonical words, which opcodes are reserved, and what a register field of 8 to 15 means; and that
every step keeps the invariant, the injective opcode map among it. -/

namespace Sys2Proof

/-! ### A word is its four fields -/

theorem opcodeField_toNat (w : Word) : (opcodeField w).toNat = w.toNat / 2048 := by
  have hw := w.isLt
  simp only [opcodeField, BitVec.extractLsb'_toNat, Nat.shiftRight_eq_div_pow]
  omega

theorem op1Field_toNat (w : Word) : (op1Field w).toNat = w.toNat / 256 % 8 := by
  simp [op1Field, Nat.shiftRight_eq_div_pow]

theorem op2Field_toNat (w : Word) : (op2Field w).toNat = w.toNat / 16 % 16 := by
  simp [op2Field, Nat.shiftRight_eq_div_pow]

theorem op3Field_toNat (w : Word) : (op3Field w).toNat = w.toNat % 16 := by
  simp [op3Field]

/-- A word's value is the sum of its fields at their places (30_encoding.md rule R58). -/
theorem toNat_eq_fields (w : Word) :
    w.toNat = (opcodeField w).toNat * 2048 + (op1Field w).toNat * 256 + (op2Field w).toNat * 16 + (op3Field w).toNat := by
  rw [opcodeField_toNat, op1Field_toNat, op2Field_toNat, op3Field_toNat]
  omega

/-- Words with the same fields are the same. -/
theorem eq_of_fields_eq {w w' : Word} (hopc : opcodeField w = opcodeField w') (h1 : op1Field w = op1Field w')
    (h2 : op2Field w = op2Field w') (h3 : op3Field w = op3Field w') : w = w' := by
  apply BitVec.eq_of_toNat_eq
  rw [toNat_eq_fields w, toNat_eq_fields w', hopc, h1, h2, h3]

/-- The layout of a packed word (30_encoding.md rules R58 and R76). -/
theorem packFields_toNat (opc : Opcode) (op1 : Reg) (op2 op3 : Nibble) :
    (packFields opc op1 op2 op3).toNat = opc.toNat * 2048 + op1.toNat * 256 + op2.toNat * 16 + op3.toNat := by
  rw [toNat_eq_fields, opcodeField_packFields, op1Field_packFields, op2Field_packFields, op3Field_packFields]

/-- Packing fields gives the one word that has them. -/
theorem packFields_eq_iff {opc : Opcode} {op1 : Reg} {op2 op3 : Nibble} {w : Word} :
    packFields opc op1 op2 op3 = w ↔
      opc = opcodeField w ∧ op1 = op1Field w ∧ op2 = op2Field w ∧ op3 = op3Field w := by
  constructor
  · rintro rfl
    rw [opcodeField_packFields, op1Field_packFields, op2Field_packFields, op3Field_packFields]
    exact ⟨rfl, rfl, rfl, rfl⟩
  · rintro ⟨rfl, rfl, rfl, rfl⟩
    exact eq_of_fields_eq (opcodeField_packFields ..) (op1Field_packFields ..) (op2Field_packFields ..)
      (op3Field_packFields ..)

/-- The low eleven bits of a word are its three operand fields. -/
theorem low_bits_eq_zero_iff (w : Word) :
    w.toNat % 2048 = 0 ↔ op1Field w = 0 ∧ op2Field w = 0 ∧ op3Field w = 0 := by
  simp only [← BitVec.toNat_inj, op1Field_toNat, op2Field_toNat, op3Field_toNat,
    BitVec.ofNat_eq_ofNat, BitVec.toNat_ofNat, Nat.zero_mod]
  omega

/-! ### An instruction is its mnemonic and its fields -/

/-- Every instruction is rebuilt from its mnemonic and fields: the family FieldsRebuild, for all constructors. -/
theorem Instr.ofFields_fields (i : Instr) : Instr.ofFields i.mnemonic i.op1 i.op2 i.op3 = i := by
  cases i with
  | nop => exact Laws.FieldsRebuild.nop
  | halt => exact Laws.FieldsRebuild.halt
  | load => exact Laws.FieldsRebuild.load ..
  | store => exact Laws.FieldsRebuild.store ..
  | ldih => exact Laws.FieldsRebuild.ldih ..
  | add => exact Laws.FieldsRebuild.add ..
  | addi => exact Laws.FieldsRebuild.addi ..
  | addc => exact Laws.FieldsRebuild.addc ..
  | sub => exact Laws.FieldsRebuild.sub ..
  | subi => exact Laws.FieldsRebuild.subi ..
  | subc => exact Laws.FieldsRebuild.subc ..
  | cmp => exact Laws.FieldsRebuild.cmp ..
  | and => exact Laws.FieldsRebuild.and ..
  | or => exact Laws.FieldsRebuild.or ..
  | xor => exact Laws.FieldsRebuild.xor ..
  | sll => exact Laws.FieldsRebuild.sll ..
  | srl => exact Laws.FieldsRebuild.srl ..
  | sla => exact Laws.FieldsRebuild.sla ..
  | sra => exact Laws.FieldsRebuild.sra ..
  | jump => exact Laws.FieldsRebuild.jump ..
  | jmpr => exact Laws.FieldsRebuild.jmpr ..
  | bz => exact Laws.FieldsRebuild.bz ..
  | bnz => exact Laws.FieldsRebuild.bnz ..
  | bn => exact Laws.FieldsRebuild.bn ..
  | bnn => exact Laws.FieldsRebuild.bnn ..
  | bc => exact Laws.FieldsRebuild.bc ..
  | bnc => exact Laws.FieldsRebuild.bnc ..

@[simp] theorem Instr.mnemonic_ofFields (m : Mnemonic) (op1 : Reg) (op2 op3 : Nibble) :
    (Instr.ofFields m op1 op2 op3).mnemonic = m := by cases m <;> rfl

/-- The mnemonics that use no operand field (30_encoding.md rule R65). -/
abbrev Mnemonic.UsesNoField (m : Mnemonic) : Prop := m = .nop ∨ m = .halt

/-- The mnemonics with operands that do not use op1 (30_encoding.md rule R65). -/
abbrev Mnemonic.SkipsOp1 (m : Mnemonic) : Prop := m = .cmp ∨ m = .jump

theorem Instr.op1_ofFields (m : Mnemonic) (op1 : Reg) (op2 op3 : Nibble) :
    (Instr.ofFields m op1 op2 op3).op1 = if m.UsesNoField ∨ m.SkipsOp1 then 0 else op1 := by cases m <;> rfl

theorem Instr.op2_ofFields (m : Mnemonic) (op1 : Reg) (op2 op3 : Nibble) :
    (Instr.ofFields m op1 op2 op3).op2 = if m.UsesNoField then 0 else op2 := by cases m <;> rfl

theorem Instr.op3_ofFields (m : Mnemonic) (op1 : Reg) (op2 op3 : Nibble) :
    (Instr.ofFields m op1 op2 op3).op3 = if m.UsesNoField then 0 else op3 := by cases m <;> rfl

/-! ### Decoding -/

/-- A word decodes to the instruction of its opcode's mnemonic with its fields. -/
theorem decode_of_mnemonicOf {map : OpcodeMap} {w : Word} {m : Mnemonic} (h : map.mnemonicOf (opcodeField w) = some m) :
    decode map w = .ok (Instr.ofFields m (op1Field w) (op2Field w) (op3Field w)) := by
  simp [decode, h]

/-- A word whose opcode has no mnemonic does not decode. -/
theorem decode_of_mnemonicOf_eq_none {map : OpcodeMap} {w : Word} (h : map.mnemonicOf (opcodeField w) = none) :
    decode map w = .error (.unknownOpcode (opcodeField w)) := by
  simp [decode, h]

/-- What a word decodes to is the instruction of a mnemonic with its opcode. -/
theorem exists_mnemonic_of_decode {map : OpcodeMap} {w : Word} {i : Instr} (h : decode map w = .ok i) :
    ∃ m, map.code m = opcodeField w ∧ i = Instr.ofFields m (op1Field w) (op2Field w) (op3Field w) := by
  cases hm : map.mnemonicOf (opcodeField w) with
  | none => rw [decode_of_mnemonicOf_eq_none hm] at h; cases h
  | some m =>
    rw [decode_of_mnemonicOf hm] at h
    cases h
    exact ⟨m, OpcodeMap.code_of_mnemonicOf hm, rfl⟩

/-- Decode answers unknownOpcode exactly where the opcode has no mnemonic. -/
theorem decode_eq_unknownOpcode_iff {map : OpcodeMap} {w : Word} :
    decode map w = .error (.unknownOpcode (opcodeField w)) ↔ map.mnemonicOf (opcodeField w) = none := by
  refine ⟨fun h => ?_, decode_of_mnemonicOf_eq_none⟩
  cases hm : map.mnemonicOf (opcodeField w) with
  | none => rfl
  | some m => rw [decode_of_mnemonicOf hm] at h; cases h

/-- Decode answers an instruction exactly where the opcode has a mnemonic. -/
theorem exists_decode_eq_ok_iff {map : OpcodeMap} {w : Word} :
    (∃ i, decode map w = .ok i) ↔ map.mnemonicOf (opcodeField w) ≠ none := by
  cases hm : map.mnemonicOf (opcodeField w) with
  | none => simp [decode_of_mnemonicOf_eq_none hm]
  | some m => simp [decode_of_mnemonicOf hm]

/-- The mnemonic of an encoded instruction, under an injective map. -/
theorem mnemonicOf_opcodeField_encode {map : OpcodeMap} (hinj : map.Injective) (i : Instr) :
    map.mnemonicOf (opcodeField (encode map i)) = some i.mnemonic := by
  rw [encode, opcodeField_packFields, OpcodeMap.mnemonicOf_code hinj]

theorem op1Field_encode (map : OpcodeMap) (i : Instr) : op1Field (encode map i) = i.op1 := op1Field_packFields ..

theorem op2Field_encode (map : OpcodeMap) (i : Instr) : op2Field (encode map i) = i.op2 := op2Field_packFields ..

theorem op3Field_encode (map : OpcodeMap) (i : Instr) : op3Field (encode map i) = i.op3 := op3Field_packFields ..

/-- Under an injective map an instruction's word decodes to it. -/
theorem decode_encode {map : OpcodeMap} (hinj : map.Injective) (i : Instr) : decode map (encode map i) = .ok i := by
  rw [decode_of_mnemonicOf (mnemonicOf_opcodeField_encode hinj i), op1Field_encode, op2Field_encode, op3Field_encode,
    Instr.ofFields_fields]

/-- Encoding the instruction of a mnemonic with a word's fields gives the word exactly where the opcode is the
mnemonic's and the fields it does not use are 0. -/
theorem encode_ofFields_eq_iff (map : OpcodeMap) (m : Mnemonic) (w : Word) (hcode : map.code m = opcodeField w) :
    encode map (Instr.ofFields m (op1Field w) (op2Field w) (op3Field w)) = w ↔
      (m.UsesNoField → op1Field w = 0 ∧ op2Field w = 0 ∧ op3Field w = 0) ∧ (m.SkipsOp1 → op1Field w = 0) := by
  rw [encode, packFields_eq_iff, Instr.mnemonic_ofFields, Instr.op1_ofFields, Instr.op2_ofFields, Instr.op3_ofFields]
  by_cases hnone : m.UsesNoField
  · have hskip : ¬ m.SkipsOp1 := by rcases hnone with rfl | rfl <;> decide
    simp only [hcode, hnone, hskip, if_true, true_or, true_and, true_imp_iff, false_imp_iff, and_true, eq_comm]
  · by_cases hskip : m.SkipsOp1 <;> simp [hcode, hnone, hskip, eq_comm]

/-- Under the default map exactly the opcodes 19 to 23 have no mnemonic (30_encoding.md rule R66). -/
theorem mnemonicOf_default_eq_none_iff :
    ∀ opc : Opcode, OpcodeMap.default.mnemonicOf opc = none ↔ 19 ≤ opc.toNat ∧ opc.toNat ≤ 23 := by
  decide

end Sys2Proof

namespace Sys2Proof.Machine

/-- Settles O57: the fields are divisions and remainders of the word's value. -/
theorem fieldsAreTheSameBitsOfEveryWord : Obligations.FieldsAreTheSameBitsOfEveryWord := fun w =>
  ⟨opcodeField_toNat w, op1Field_toNat w, op2Field_toNat w, op3Field_toNat w⟩

/-- Settles O40: an instruction is its mnemonic and fields, and a word has one place for each. -/
theorem decodeOfEncodeIsTheInstruction : Obligations.DecodeOfEncodeIsTheInstruction := fun _ hinj i =>
  ⟨decode_encode hinj i, packFields_toNat ..⟩

/-- Settles O41: the encoder writes 0 into the unused fields and the word's own bits into the others. -/
theorem encodeOfDecodeIsTheCanonicalWord : Obligations.EncodeOfDecodeIsTheCanonicalWord := by
  intro map w i h
  obtain ⟨m, hcode, rfl⟩ := exists_mnemonic_of_decode h
  rw [encode_ofFields_eq_iff map m w hcode, Instr.mnemonic_ofFields, low_bits_eq_zero_iff]

/-- Settles O42: decode looks the opcode up in the map read backwards. -/
theorem decodeRefusesExactlyReservedOpcodes : Obligations.DecodeRefusesExactlyReservedOpcodes := by
  intro map w
  rw [decode_eq_unknownOpcode_iff, exists_decode_eq_ok_iff, Ne, OpcodeMap.mnemonicOf_eq_none]
  exact ⟨Iff.rfl, by push Not; rfl⟩

/-- Settles O43: a word is in the range exactly if its opcode is one of 19 to 23. -/
theorem defaultMapReservesCodes19To23 : Obligations.DefaultMapReservesCodes19To23 := by
  refine ⟨by decide, fun w => ?_⟩
  rw [exists_decode_eq_ok_iff, Ne, mnemonicOf_default_eq_none_iff, opcodeField_toNat]
  omega

/-- Settles O44: the six words are the encodings of their instructions, but for JUMP's unused op1. -/
theorem defaultMapDecodesTheSpecsWords : Obligations.DefaultMapDecodesTheSpecsWords := by
  have hinj : OpcodeMap.default.Injective := by decide
  exact ⟨decode_encode hinj (.load 1 2 3), decode_encode hinj (.store 1 2 15), decode_encode hinj (.subc 1 2 3),
    decode_encode hinj (.sra 1 2 4), decode_of_mnemonicOf (m := .jump) (by decide), decode_encode hinj (.bnc 7 15 15)⟩

/-! ### Immediates -/

theorem imm4Word_toNat (op3 : Nibble) : (imm4Word op3).toNat = op3.toNat := by
  rw [imm4Word, BitVec.toNat_setWidth_of_le (by decide)]

/-- imm8 is the word that holds the two fields alone. -/
theorem imm8Word_eq_packFields (op2 op3 : Nibble) : imm8Word op2 op3 = packFields 0 0 op2 op3 := by
  simp [imm8Word, packFields]

theorem imm8Word_toNat (op2 op3 : Nibble) : (imm8Word op2 op3).toNat = op2.toNat * 16 + op3.toNat := by
  simp [imm8Word_eq_packFields, packFields_toNat]

/-- immH is imm8 in the high byte: the mask clears no bit. -/
theorem immHWord_eq_shiftLeft (op2 op3 : Nibble) : immHWord op2 op3 = imm8Word op2 op3 <<< 8 := by
  apply BitVec.eq_of_getLsbD_eq
  intro k hk
  interval_cases k <;> simp [immHWord, imm8Word]

theorem immHWord_toNat (op2 op3 : Nibble) : (immHWord op2 op3).toNat = (op2.toNat * 16 + op3.toNat) * 256 := by
  have h2 := op2.isLt
  have h3 := op3.isLt
  rw [immHWord_eq_shiftLeft, BitVec.toNat_shiftLeft, imm8Word_toNat, Nat.shiftLeft_eq]
  omega

/-- Settles O16: the fields of an immediate stand side by side, with zeros above. -/
theorem immediatesAreUnsigned : Obligations.ImmediatesAreUnsigned := fun op2 op3 =>
  ⟨imm4Word_toNat op3, imm8Word_toNat op2 op3, immHWord_toNat op2 op3⟩

/-! ### Image files -/

/-- The two bytes of a word side by side are the word. -/
theorem low_byte_or_high_byte (w : Word) :
    (w.extractLsb' 0 8).setWidth 16 ||| ((w.extractLsb' 8 8).setWidth 16 <<< 8) = w := by
  apply BitVec.eq_of_getLsbD_eq
  intro k hk
  interval_cases k <;> simp

/-- The first two bytes of a file are read as the word they were written from, in each byte order. -/
theorem imageWords_bytesOfWord_append (order : ByteOrder) (w : Word) (rest : List Byte) :
    imageWords order (bytesOfWord order w ++ rest) = (imageWords order rest).map (w :: ·) := by
  cases order with
  | little => simp only [bytesOfWord, List.cons_append, List.nil_append, imageWords, wordOfBytes,
      low_byte_or_high_byte]
  | big => simp only [bytesOfWord, List.cons_append, List.nil_append, imageWords, wordOfBytes, BitVec.or_comm,
      low_byte_or_high_byte]

/-- Settles O49, by induction on the program: a file is the two bytes of each word in turn. -/
theorem imageFileRoundTrips : Obligations.ImageFileRoundTrips := by
  intro order image
  induction image with
  | nil => rfl
  | cons w ws ih =>
    calc imageWords order (bytesOfWord order w ++ fileOfWords order ws)
        = (imageWords order (fileOfWords order ws)).map (w :: ·) := imageWords_bytesOfWord_append order w _
      _ = .ok (w :: ws) := by rw [ih]; rfl

/-! ### The invariant -/

/-- No result is both negative and zero. -/
theorem not_negFlag_and_zeroFlag (r : Word) : ¬ (negFlag r = true ∧ zeroFlag r = true) := by
  rintro ⟨hneg, hzero⟩
  rw [zeroFlag, beq_iff_eq] at hzero
  rw [hzero] at hneg
  exact absurd hneg (by decide)

/-- Every instruction keeps the invariant: only CMP writes NF and ZF, and only STORE a memory, inside it. -/
theorem exec_keeps_inv {i : Instr} {s t : State} (hinv : s.Inv) (h : exec i s = .next t) : t.Inv := by
  obtain ⟨hinj, himem, hdmem, hflags⟩ := hinv
  cases exec_effect h with
  | compares v hm => exact ⟨hinj, himem, hdmem, not_negFlag_and_zeroFlag v⟩
  | stores rA op2 op3 hi hnames hea => exact ⟨hinj, himem, Memory.wf_write _ hdmem hea, hflags⟩
  | halts hi => split <;> exact ⟨hinj, himem, hdmem, hflags⟩
  | illegalRegister | outOfRange | writes | writesCarry | transfers => exact ⟨hinj, himem, hdmem, hflags⟩

/-- Settles O37: a fault of fetch or decode changes only the status, and every instruction keeps the invariant. -/
theorem invariantIsKeptByEveryStep : Obligations.InvariantIsKeptByEveryStep := by
  intro s t hinv h
  obtain ⟨_, ⟨_, rfl⟩ | ⟨_, _, rfl⟩ | ⟨i, _, hexec⟩⟩ := step_cases h
  · exact hinv
  · exact hinv
  · exact exec_keeps_inv hinv hexec

end Sys2Proof.Machine
end

section
/-! SUPPORT. Proof of the statement about register fields of 8 to 15 (30_encoding.md rule R63): the fault, the reduction
to three bits, and that the policy has no influence on a well-formed instruction. -/

namespace Sys2Proof

/-! ### Well-formedness by shape -/

/-- The register-typed fields of a shape are 0 to 7 (30_encoding.md rule R62). -/
def Shape.fieldsOk (op2 op3 : Nibble) : Shape → Bool
  | .shapeNone => true
  | .shapeR => regFieldOk op2 && regFieldOk op3
  | .shapeI => true
  | .shapeRI => regFieldOk op2

/-- op2 and op3 with the register-typed ones of a shape reduced to three bits (30_encoding.md rule R63). -/
def Shape.low3Fields (op2 op3 : Nibble) : Shape → Nibble × Nibble
  | .shapeNone => (op2, op3)
  | .shapeR => (op2 &&& 7, op3 &&& 7)
  | .shapeI => (op2, op3)
  | .shapeRI => (op2 &&& 7, op3)

/-- Well-formedness is a matter of the shape and of op2 and op3. -/
theorem Instr.wellFormed_ofFields (m : Mnemonic) (op1 : Reg) (op2 op3 : Nibble) :
    (Instr.ofFields m op1 op2 op3).wellFormed = m.shape.fieldsOk op2 op3 := by cases m <;> rfl

theorem Instr.wellFormed_eq_fieldsOk (i : Instr) : i.wellFormed = i.mnemonic.shape.fieldsOk i.op2 i.op3 := by
  rw [← Instr.wellFormed_ofFields i.mnemonic i.op1, Instr.ofFields_fields]

theorem Instr.low3_eq_ofFields (i : Instr) :
    i.low3 = Instr.ofFields i.mnemonic i.op1 (i.mnemonic.shape.low3Fields i.op2 i.op3).1
      (i.mnemonic.shape.low3Fields i.op2 i.op3).2 := by cases i <;> rfl

/-- The low three bits of a field are 0 to 7. -/
theorem regFieldOk_and_seven : ∀ f : Nibble, regFieldOk (f &&& 7) = true := by decide

/-- Reducing the register-typed fields to three bits makes every instruction well-formed. -/
theorem Instr.wellFormed_low3 (i : Instr) : i.low3.wellFormed = true := by
  rw [Instr.low3_eq_ofFields, Instr.wellFormed_ofFields]
  cases i.mnemonic.shape with
  | shapeNone | shapeI => rfl
  | shapeR => rw [Shape.low3Fields, Shape.fieldsOk, regFieldOk_and_seven, regFieldOk_and_seven, Bool.and_self]
  | shapeRI => exact regFieldOk_and_seven i.op2

end Sys2Proof

namespace Sys2Proof.Machine

section
variable {s : State} {rA : Reg} {op2 op3 : Nibble}

/-! ### A field that names no register -/

/-- Under fault a field names a register only where it is 0 to 7. -/
theorem namesReg_iff_regFieldOk (hp : s.params.regfieldPolicy = .fault) {f : Nibble} :
    NamesReg s f ↔ regFieldOk f = true := by
  simp [NamesReg, regFieldOk, hp]

/-- Under fault an ill-formed shape RI instruction has a field that names no register. -/
theorem not_namesReg_of_fault (hp : s.params.regfieldPolicy = .fault) {f : Nibble} (h : regFieldOk f = false) :
    ¬ NamesReg s f := by
  simp [namesReg_iff_regFieldOk hp, h]

/-- The same for the two fields of a shape R instruction. -/
theorem not_namesReg_and_of_fault (hp : s.params.regfieldPolicy = .fault) {f g : Nibble}
    (h : (regFieldOk f && regFieldOk g) = false) : ¬ (NamesReg s f ∧ NamesReg s g) := by
  rw [namesReg_iff_regFieldOk hp, namesReg_iff_regFieldOk hp, ← Bool.and_eq_true, h]
  exact Bool.false_ne_true

theorem opRegReg_of_not_namesReg (f : Word → Word → Word) (h : ¬ (NamesReg s op2 ∧ NamesReg s op3)) :
    opRegReg f rA op2 op3 s = .next (FaultedBy .illegalRegisterIndex s) :=
  ((opRegReg_cases f rA op2 op3 s).resolve_left fun ⟨h2, h3, _⟩ => h ⟨h2, h3⟩).2

theorem opRegRegCarry_of_not_namesReg (f : Word → Word → Bool → Word × Bool) (h : ¬ (NamesReg s op2 ∧ NamesReg s op3)) :
    opRegRegCarry f rA op2 op3 s = .next (FaultedBy .illegalRegisterIndex s) :=
  ((opRegRegCarry_cases f rA op2 op3 s).resolve_left fun ⟨h2, h3, _⟩ => h ⟨h2, h3⟩).2

theorem execCmp_of_not_namesReg (h : ¬ (NamesReg s op2 ∧ NamesReg s op3)) :
    execCmp op2 op3 s = .next (FaultedBy .illegalRegisterIndex s) :=
  ((execCmp_cases op2 op3 s).resolve_left fun ⟨h2, h3, _⟩ => h ⟨h2, h3⟩).2

theorem opShift_of_not_namesReg (f : Word → Nibble → Word) (h : ¬ NamesReg s op2) :
    opShift f rA op2 op3 s = .next (FaultedBy .illegalRegisterIndex s) :=
  ((opShift_cases f rA op2 op3 s).resolve_left fun ⟨h2, _⟩ => h h2).2

theorem execLoad_of_not_namesReg (h : ¬ NamesReg s op2) :
    execLoad rA op2 op3 s = .next (FaultedBy .illegalRegisterIndex s) :=
  (((execLoad_cases rA op2 op3 s).resolve_left fun ⟨h2, _⟩ => h h2).resolve_left fun ⟨h2, _⟩ => h h2).2

theorem execStore_of_not_namesReg (h : ¬ NamesReg s op2) :
    execStore rA op2 op3 s = .next (FaultedBy .illegalRegisterIndex s) :=
  (((execStore_cases rA op2 op3 s).resolve_left fun ⟨h2, _⟩ => h h2).resolve_left fun ⟨h2, _⟩ => h h2).2

/-- Under fault an ill-formed instruction takes IllegalRegisterIndex, whatever it is. -/
theorem exec_of_illFormed {i : Instr} (hp : s.params.regfieldPolicy = .fault) (h : i.wellFormed = false) :
    exec i s = .next (FaultedBy .illegalRegisterIndex s) := by
  cases i with
  | nop | halt | ldih | addi | subi | jump | jmpr | bz | bnz | bn | bnn | bc | bnc => cases h
  | load => exact execLoad_of_not_namesReg (not_namesReg_of_fault hp h)
  | store => exact execStore_of_not_namesReg (not_namesReg_of_fault hp h)
  | add => exact opRegReg_of_not_namesReg add16 (not_namesReg_and_of_fault hp h)
  | sub => exact opRegReg_of_not_namesReg sub16 (not_namesReg_and_of_fault hp h)
  | and => exact opRegReg_of_not_namesReg and16 (not_namesReg_and_of_fault hp h)
  | or => exact opRegReg_of_not_namesReg or16 (not_namesReg_and_of_fault hp h)
  | xor => exact opRegReg_of_not_namesReg xor16 (not_namesReg_and_of_fault hp h)
  | addc => exact opRegRegCarry_of_not_namesReg addc (not_namesReg_and_of_fault hp h)
  | subc => exact opRegRegCarry_of_not_namesReg subc (not_namesReg_and_of_fault hp h)
  | cmp => exact execCmp_of_not_namesReg (not_namesReg_and_of_fault hp h)
  | sll => exact opShift_of_not_namesReg shl16 (not_namesReg_of_fault hp h)
  | srl => exact opShift_of_not_namesReg shr16 (not_namesReg_of_fault hp h)
  | sla => exact opShift_of_not_namesReg shl16 (not_namesReg_of_fault hp h)
  | sra => exact opShift_of_not_namesReg sra16 (not_namesReg_of_fault hp h)

/-! ### Fields that mean the same under two policies -/

/-- The state with another register-field policy. -/
def State.withPolicy (s : State) (p : RegfieldPolicy) : State := { s with params.regfieldPolicy := p }

/-- The answer with its next state, where it has one, given another register-field policy. -/
def resultWithPolicy (p : RegfieldPolicy) : Result → Result
  | .next t => .next (t.withPolicy p)
  | .fault r => .fault r
  | .refused r => .refused r

/-- The fields `op2'` and `op3'` under policy `p'` mean for an instruction of this shape what `op2` and `op3` mean
under `p`: the same register or the same fault, and the same immediates. -/
def SameOperands (p p' : RegfieldPolicy) (op2 op3 op2' op3' : Nibble) : Shape → Prop
  | .shapeNone => True
  | .shapeR => regfield p' op2' = regfield p op2 ∧ regfield p' op3' = regfield p op3
  | .shapeI => op2' = op2 ∧ op3' = op3
  | .shapeRI => regfield p' op2' = regfield p op2 ∧ op3' = op3

variable {p : RegfieldPolicy} {op2' op3' : Nibble}

/-- A data-memory write hands on the other policy, and faults as before. -/
theorem State.memWrite_withPolicy (a v : Word) :
    (s.withPolicy p).memWrite a v = (s.memWrite a v).map (·.withPolicy p) := by
  simp only [State.memWrite]
  split <;> rfl

/-- Where an instruction begins with the same read `x` under both policies, what follows it decides. -/
theorem complete_bind_withPolicy {α : Type} {x x' : Except FaultReason α} {k k' : α → Except FaultReason State}
    (hx : x' = x) (h : ∀ a, complete (s.withPolicy p) (k' a) = resultWithPolicy p (complete s (k a))) :
    complete (s.withPolicy p) (x' >>= k') = resultWithPolicy p (complete s (x >>= k)) := by
  subst hx
  cases x' with
  | error reason => rfl
  | ok a => exact h a

/-! One lemma per instruction form: the policy is read by the check of the register-typed fields alone. -/

theorem opRegReg_withPolicy (f : Word → Word → Word)
    (h : SameOperands s.params.regfieldPolicy p op2 op3 op2' op3' .shapeR) :
    opRegReg f rA op2' op3' (s.withPolicy p) = resultWithPolicy p (opRegReg f rA op2 op3 s) :=
  complete_bind_withPolicy h.1 fun _ => complete_bind_withPolicy h.2 fun _ => rfl

theorem opRegRegCarry_withPolicy (f : Word → Word → Bool → Word × Bool)
    (h : SameOperands s.params.regfieldPolicy p op2 op3 op2' op3' .shapeR) :
    opRegRegCarry f rA op2' op3' (s.withPolicy p) = resultWithPolicy p (opRegRegCarry f rA op2 op3 s) :=
  complete_bind_withPolicy h.1 fun _ => complete_bind_withPolicy h.2 fun _ => rfl

theorem execCmp_withPolicy (h : SameOperands s.params.regfieldPolicy p op2 op3 op2' op3' .shapeR) :
    execCmp op2' op3' (s.withPolicy p) = resultWithPolicy p (execCmp op2 op3 s) :=
  complete_bind_withPolicy h.1 fun _ => complete_bind_withPolicy h.2 fun _ => rfl

theorem opShift_withPolicy (f : Word → Nibble → Word)
    (h : SameOperands s.params.regfieldPolicy p op2 op3 op2' op3' .shapeRI) :
    opShift f rA op2' op3' (s.withPolicy p) = resultWithPolicy p (opShift f rA op2 op3 s) := by
  obtain ⟨h2, rfl⟩ := h
  exact complete_bind_withPolicy h2 fun _ => rfl

theorem execLoad_withPolicy (h : SameOperands s.params.regfieldPolicy p op2 op3 op2' op3' .shapeRI) :
    execLoad rA op2' op3' (s.withPolicy p) = resultWithPolicy p (execLoad rA op2 op3 s) := by
  obtain ⟨h2, rfl⟩ := h
  exact complete_bind_withPolicy h2 fun b =>
    complete_bind_withPolicy (x := s.memRead (effectiveAddress (s.readReg b) op3')) rfl fun _ => rfl

theorem execStore_withPolicy (h : SameOperands s.params.regfieldPolicy p op2 op3 op2' op3' .shapeRI) :
    execStore rA op2' op3' (s.withPolicy p) = resultWithPolicy p (execStore rA op2 op3 s) := by
  obtain ⟨h2, rfl⟩ := h
  refine complete_bind_withPolicy h2 fun b => ?_
  have hread (q : Reg) : (s.withPolicy p).readReg q = s.readReg q := rfl
  rw [State.memWrite_withPolicy, hread, hread]
  cases s.memWrite (effectiveAddress (s.readReg b) op3') (s.readReg rA) <;> rfl

theorem opRegImm_withPolicy (f : Word → Word → Word) (imm : Nibble → Nibble → Word)
    (h : SameOperands s.params.regfieldPolicy p op2 op3 op2' op3' .shapeI) :
    opRegImm f rA (imm op2' op3') (s.withPolicy p) = resultWithPolicy p (opRegImm f rA (imm op2 op3) s) := by
  obtain ⟨rfl, rfl⟩ := h
  rfl

theorem opBranch_withPolicy (cond : Bool) (h : SameOperands s.params.regfieldPolicy p op2 op3 op2' op3' .shapeI) :
    opBranch cond rA op2' op3' (s.withPolicy p) = resultWithPolicy p (opBranch cond rA op2 op3 s) := by
  obtain ⟨rfl, rfl⟩ := h
  cases cond <;> rfl

theorem execHalt_withPolicy : execHalt (s.withPolicy p) = resultWithPolicy p (execHalt s) := by
  have hadv : (s.withPolicy p).params.haltAdvancesPc = s.params.haltAdvancesPc := rfl
  rw [execHalt, execHalt, hadv]
  split <;> rfl

/-- Instructions of one mnemonic and op1 whose operands mean the same do the same under their two policies. -/
theorem exec_withPolicy {m : Mnemonic} (h : SameOperands s.params.regfieldPolicy p op2 op3 op2' op3' m.shape) :
    exec (Instr.ofFields m rA op2' op3') (s.withPolicy p) =
      resultWithPolicy p (exec (Instr.ofFields m rA op2 op3) s) := by
  cases m with
  | nop => rfl
  | halt => exact execHalt_withPolicy
  | load => exact execLoad_withPolicy h
  | store => exact execStore_withPolicy h
  | ldih => exact opRegImm_withPolicy add16 immHWord h
  | addi => exact opRegImm_withPolicy add16 imm8Word h
  | subi => exact opRegImm_withPolicy sub16 imm8Word h
  | add => exact opRegReg_withPolicy add16 h
  | sub => exact opRegReg_withPolicy sub16 h
  | and => exact opRegReg_withPolicy and16 h
  | or => exact opRegReg_withPolicy or16 h
  | xor => exact opRegReg_withPolicy xor16 h
  | addc => exact opRegRegCarry_withPolicy addc h
  | subc => exact opRegRegCarry_withPolicy subc h
  | cmp => exact execCmp_withPolicy h
  | sll => exact opShift_withPolicy shl16 h
  | srl => exact opShift_withPolicy shr16 h
  | sla => exact opShift_withPolicy shl16 h
  | sra => exact opShift_withPolicy sra16 h
  | jump => obtain ⟨rfl, rfl⟩ := h; rfl
  | jmpr => exact opBranch_withPolicy true h
  | bz => exact opBranch_withPolicy s.zf h
  | bnz => exact opBranch_withPolicy (!s.zf) h
  | bn => exact opBranch_withPolicy s.nf h
  | bnn => exact opBranch_withPolicy (!s.nf) h
  | bc => exact opBranch_withPolicy s.cf h
  | bnc => exact opBranch_withPolicy (!s.cf) h

/-! ### Under low3, and for well-formed instructions -/

/-- Under low3 a field and its low three bits name the same register. -/
theorem regfield_low3_and_seven : ∀ f : Nibble, regfield .low3 (f &&& 7) = regfield .low3 f := by decide

/-- A field of 0 to 7 names the same register under all policies. -/
theorem regfield_eq_of_regFieldOk {f : Nibble} (h : regFieldOk f = true) (p p' : RegfieldPolicy) :
    regfield p f = regfield p' f := by
  have hlt : f.toNat < 8 := by simpa [regFieldOk] using h
  rw [regfield_of_lt hlt, regfield_of_lt hlt]

/-- The operands of a well-formed instruction mean the same under all policies. -/
theorem sameOperands_of_wellFormed {i : Instr} (h : i.wellFormed = true) (p p' : RegfieldPolicy) :
    SameOperands p p' i.op2 i.op3 i.op2 i.op3 i.mnemonic.shape := by
  rw [Instr.wellFormed_eq_fieldsOk] at h
  cases hs : i.mnemonic.shape with
  | shapeNone => trivial
  | shapeR =>
    rw [hs, Shape.fieldsOk, Bool.and_eq_true] at h
    exact ⟨regfield_eq_of_regFieldOk h.1 .., regfield_eq_of_regFieldOk h.2 ..⟩
  | shapeI => exact ⟨rfl, rfl⟩
  | shapeRI =>
    rw [hs, Shape.fieldsOk] at h
    exact ⟨regfield_eq_of_regFieldOk h .., rfl⟩

/-- Under low3 the operands mean the same as reduced to three bits. -/
theorem sameOperands_low3Fields (sh : Shape) (op2 op3 : Nibble) :
    SameOperands .low3 .low3 op2 op3 (sh.low3Fields op2 op3).1 (sh.low3Fields op2 op3).2 sh := by
  cases sh with
  | shapeNone => trivial
  | shapeR => exact ⟨regfield_low3_and_seven op2, regfield_low3_and_seven op3⟩
  | shapeI => exact ⟨rfl, rfl⟩
  | shapeRI => exact ⟨regfield_low3_and_seven op2, rfl⟩

/-- The policy a state has already. -/
theorem State.withPolicy_self (hp : s.params.regfieldPolicy = p) : s.withPolicy p = s := by
  subst hp
  rfl

/-- An instruction keeps the policy, so its answer has the state's. -/
theorem resultWithPolicy_exec (hp : s.params.regfieldPolicy = p) (i : Instr) :
    resultWithPolicy p (exec i s) = exec i s := by
  cases hx : exec i s with
  | next t =>
    have hparams := (exec_keeps_imem_params hx).2
    rw [resultWithPolicy, State.withPolicy_self (by rw [hparams, hp])]
  | fault r => rfl
  | refused r => rfl

/-- Under low3 an instruction does what it does with its register-typed fields reduced to three bits. -/
theorem exec_low3 (hp : s.params.regfieldPolicy = .low3) (i : Instr) : exec i s = exec i.low3 s := by
  have hsame := sameOperands_low3Fields i.mnemonic.shape i.op2 i.op3
  calc exec i s
      = resultWithPolicy .low3 (exec (Instr.ofFields i.mnemonic i.op1 i.op2 i.op3) s) := by
        rw [Instr.ofFields_fields, resultWithPolicy_exec hp]
    _ = exec i.low3 (s.withPolicy .low3) := by
        rw [Instr.low3_eq_ofFields, exec_withPolicy (by rwa [hp])]
    _ = exec i.low3 s := by rw [State.withPolicy_self hp]

end

/-- Settles O27: the policy is read by the check of the register-typed fields alone. -/
theorem registerFieldPolicyDecidesIllFormedInstructions :
    Obligations.RegisterFieldPolicyDecidesIllFormedInstructions := by
  refine fun i s => ⟨fun h hp => exec_of_illFormed hp h, fun hp => ⟨exec_low3 hp i, i.wellFormed_low3⟩, ?_⟩
  intro h p t ht
  have hsame := exec_withPolicy (rA := i.op1) (sameOperands_of_wellFormed h s.params.regfieldPolicy p)
  rw [Instr.ofFields_fields, ht] at hsame
  exact hsame

end Sys2Proof.Machine
end

section
/-! SUPPORT. Proofs of the statements about the assembler and disassembler (30_encoding.md rules R70 to R78): what each
operand token means, and that the assembler reads back the line the disassembler prints. -/

namespace Sys2Proof.Machine

/-! ### Register tokens -/

/-- The fixed table of register names (30_encoding.md rule R72). -/
theorem regOfText_regText : ∀ r : Reg, regOfText (regText r) = some r := by decide

/-- A register's name is the only text that resolves to it. -/
theorem eq_regText_of_regOfText {t : List Char} {r : Reg} (h : regOfText t = some r) : t = regText r := by
  unfold regOfText at h
  split at h <;> cases h <;> rfl

theorem regToken_eq_ok_iff {t : List Char} {r : Reg} : regToken t = .ok r ↔ t = regText r := by
  constructor
  · intro h
    simp only [regToken] at h
    split at h
    · next q hq => cases h; exact eq_regText_of_regOfText hq
    · cases h
  · rintro rfl
    rw [regToken, regOfText_regText]

theorem regToken_regText (r : Reg) : regToken (regText r) = .ok r := regToken_eq_ok_iff.2 rfl

/-- A token that is no register's name is refused. -/
theorem regToken_of_unresolved {t : List Char} (h : ∀ r, t ≠ regText r) : regToken t = .error .unresolvedRegister := by
  cases hr : regOfText t with
  | none => rw [regToken, hr]
  | some r => exact absurd (eq_regText_of_regOfText hr) (h r)

/-- Settles O52: the names stand in a fixed table. -/
theorem onlyRegisterNamesResolve : Obligations.OnlyRegisterNamesResolve := fun _ =>
  ⟨fun _ => regToken_eq_ok_iff, regToken_of_unresolved⟩

/-- Settles O54: every shape with operands resolves the first of three tokens as a register, before the others. -/
theorem linesWithAnUnresolvedFirstRegisterAreRefused : Obligations.LinesWithAnUnresolvedFirstRegisterAreRefused := by
  intro m a b c hshape ha
  have hfirst := regToken_of_unresolved ha
  cases hs : m.shape with
  | shapeNone => exact absurd hs hshape
  | shapeR => simp only [operandFields, hs, hfirst]; rfl
  | shapeI => simp only [operandFields, hs, hfirst]; rfl
  | shapeRI => simp only [operandFields, hs, hfirst]; rfl

/-! ### Immediate tokens -/

/-- A text without a sign has the value of its digits. -/
theorem integerOfText_of_natural {t : List Char} {n : Nat} (h : naturalOfText t = some n) :
    integerOfText t = some (n : Int) := by
  unfold integerOfText
  split
  · cases h
  · cases h
  · rw [h]; rfl

/-- The low four bits of an integer, as its remainder modulo 16. -/
theorem ofInt_eq_ofNat_of_emod {v : Int} {k : Nat} (h : v % 16 = k) : BitVec.ofInt 4 v = BitVec.ofNat 4 k := by
  apply BitVec.eq_of_toNat_eq
  rw [BitVec.toNat_ofInt, BitVec.toNat_ofNat]
  omega

theorem immToken_of_integer {t : List Char} {v : Int} {k : Nat} (h : integerOfText t = some v) (hk : v % 16 = k) :
    immToken t = .ok (BitVec.ofNat 4 k) := by
  rw [immToken, h, ← ofInt_eq_ofNat_of_emod hk]

/-- Settles O51: the sign decides the value, and the value modulo 16 the field. -/
theorem immediateTokensAreMasked : Obligations.ImmediateTokensAreMasked := by
  intro t n h
  refine ⟨immToken_of_integer (integerOfText_of_natural h) (by omega),
    immToken_of_integer (v := n) (by rw [integerOfText, h]; rfl) (by omega),
    immToken_of_integer (v := -n) (by rw [integerOfText, h]; rfl) (by omega)⟩

/-- The printed immediate is the field's value in decimal. -/
theorem naturalOfText_immText : ∀ f : Nibble, naturalOfText (immText f) = some f.toNat := by decide

theorem immToken_immText (f : Nibble) : immToken (immText f) = .ok f := by
  have h := f.isLt
  rw [immToken_of_integer (integerOfText_of_natural (naturalOfText_immText f)) (k := f.toNat) (by omega),
    BitVec.ofNat_toNat, BitVec.setWidth_eq]

/-! ### Trimming -/

/-- A token: not empty, without white space and commas. -/
def isToken (t : List Char) : Bool := !t.isEmpty && t.all fun c => !isBlank c && c != ','

theorem isToken_iff {t : List Char} : isToken t = true ↔ t ≠ [] ∧ ∀ c ∈ t, isBlank c = false ∧ c ≠ ',' := by
  simp [isToken]

/-- A text with no white space at its ends, which `trimText` leaves as it is. -/
def Tight (t : List Char) : Prop := t.dropWhile isBlank = t ∧ t.reverse.dropWhile isBlank = t.reverse

theorem trimText_of_tight {t : List Char} (h : Tight t) : trimText t = t := by
  rw [trimText, h.1, h.2, List.reverse_reverse]

theorem trimText_cons_blank {c : Char} (hc : isBlank c = true) (t : List Char) : trimText (c :: t) = trimText t := by
  rw [trimText, List.dropWhile_cons_of_pos hc, trimText]

/-- Where no character is white space, none is dropped. -/
theorem dropWhile_isBlank_eq_self {t : List Char} (h : ∀ c ∈ t, isBlank c = false) : t.dropWhile isBlank = t := by
  cases t with
  | nil => rfl
  | cons c cs => rw [List.dropWhile_cons_of_neg (by simp [h c])]

theorem tight_of_isToken {t : List Char} (h : isToken t = true) : Tight t := by
  obtain ⟨_, hchars⟩ := isToken_iff.1 h
  exact ⟨dropWhile_isBlank_eq_self fun c hc => (hchars c hc).1,
    dropWhile_isBlank_eq_self fun c hc => (hchars c (List.mem_reverse.1 hc)).1⟩

/-- A text that starts with a non-empty text without white space in front has none in front. -/
theorem dropWhile_isBlank_append {a : List Char} (ha : a ≠ []) (h : a.dropWhile isBlank = a) (b : List Char) :
    (a ++ b).dropWhile isBlank = a ++ b := by
  rw [List.dropWhile_append, h, if_neg (by simpa using ha)]

/-- A text between two tight texts becomes tight. -/
theorem tight_append {a b : List Char} (ha : Tight a) (hb : Tight b) (hane : a ≠ []) (hbne : b ≠ []) (m : List Char) :
    Tight (a ++ m ++ b) := by
  constructor
  · rw [List.append_assoc]
    exact dropWhile_isBlank_append hane ha.1 _
  · rw [List.reverse_append]
    exact dropWhile_isBlank_append (by simpa using hbne) hb.2 _

/-! ### Operand tokens -/

theorem splitCommas_ne_nil (t : List Char) : splitCommas t ≠ [] := by
  cases t with
  | nil => simp [splitCommas]
  | cons c cs =>
    simp only [splitCommas]
    split
    · simp
    · split <;> simp

/-- A character other than a comma joins the first piece. -/
theorem splitCommas_cons {c : Char} (hc : c ≠ ',') {cs piece : List Char} {pieces : List (List Char)}
    (h : splitCommas cs = piece :: pieces) : splitCommas (c :: cs) = (c :: piece) :: pieces := by
  simp [splitCommas, hc, h]

/-- A text without commas is one piece. -/
theorem splitCommas_of_no_comma {t : List Char} (h : ∀ c ∈ t, c ≠ ',') : splitCommas t = [t] := by
  induction t with
  | nil => rfl
  | cons c cs ih =>
    rw [List.forall_mem_cons] at h
    exact splitCommas_cons h.1 (ih h.2)

/-- A text without commas before a comma is the first piece. -/
theorem splitCommas_append_comma {t : List Char} (h : ∀ c ∈ t, c ≠ ',') (rest : List Char) :
    splitCommas (t ++ ',' :: rest) = t :: splitCommas rest := by
  induction t with
  | nil => simp [splitCommas]
  | cons c cs ih =>
    rw [List.forall_mem_cons] at h
    exact splitCommas_cons h.1 (ih h.2)

/-- White space after a comma does not change the trimmed pieces. -/
theorem map_trimText_splitCommas_cons_space (t : List Char) :
    (splitCommas (' ' :: t)).map trimText = (splitCommas t).map trimText := by
  cases h : splitCommas t with
  | nil => exact absurd h (splitCommas_ne_nil t)
  | cons piece pieces =>
    rw [splitCommas_cons (by decide) h, List.map_cons, trimText_cons_blank (by decide), List.map_cons]

/-- The trimmed pieces of joined tokens are the tokens. -/
theorem map_trimText_splitCommas_joinOperands (t : List Char) (ts : List (List Char))
    (h : ∀ u ∈ t :: ts, isToken u = true) : (splitCommas (joinOperands (t :: ts))).map trimText = t :: ts := by
  induction ts generalizing t with
  | nil =>
    have ht := h t (by simp)
    have hcomma : ∀ c ∈ t, c ≠ ',' := fun c hc => ((isToken_iff.1 ht).2 c hc).2
    rw [joinOperands, splitCommas_of_no_comma hcomma, List.map_singleton, trimText_of_tight (tight_of_isToken ht)]
  | cons u us ih =>
    rw [List.forall_mem_cons] at h
    obtain ⟨ht, hrest⟩ := h
    have hcomma : ∀ c ∈ t, c ≠ ',' := fun c hc => ((isToken_iff.1 ht).2 c hc).2
    calc (splitCommas (joinOperands (t :: u :: us))).map trimText
        = (splitCommas (t ++ ',' :: ' ' :: joinOperands (u :: us))).map trimText := by simp [joinOperands]
      _ = trimText t :: (splitCommas (' ' :: joinOperands (u :: us))).map trimText := by
          rw [splitCommas_append_comma hcomma, List.map_cons]
      _ = t :: u :: us := by
          rw [trimText_of_tight (tight_of_isToken ht), map_trimText_splitCommas_cons_space, ih u hrest]

theorem joinOperands_ne_nil {t : List Char} (ht : isToken t = true) (ts : List (List Char)) :
    joinOperands (t :: ts) ≠ [] := by
  have hne := (isToken_iff.1 ht).1
  cases ts with
  | nil => exact hne
  | cons u us => simp [joinOperands]

/-- Joined tokens have no white space at their ends. -/
theorem tight_joinOperands (t : List Char) (ts : List (List Char)) (h : ∀ u ∈ t :: ts, isToken u = true) :
    Tight (joinOperands (t :: ts)) := by
  induction ts generalizing t with
  | nil => exact tight_of_isToken (h t (by simp))
  | cons u us ih =>
    rw [List.forall_mem_cons] at h
    obtain ⟨ht, hrest⟩ := h
    exact tight_append (tight_of_isToken ht) (ih u hrest) (isToken_iff.1 ht).1
      (joinOperands_ne_nil (hrest u (by simp)) us) [',', ' ']

/-- The operand tokens of joined tokens after a space are the tokens. -/
theorem operandTokens_joinOperands (t : List Char) (ts : List (List Char)) (h : ∀ u ∈ t :: ts, isToken u = true) :
    operandTokens (' ' :: joinOperands (t :: ts)) = t :: ts := by
  have htrim : trimText (' ' :: joinOperands (t :: ts)) = joinOperands (t :: ts) := by
    rw [trimText_cons_blank (by decide), trimText_of_tight (tight_joinOperands t ts h)]
  have hsplit := map_trimText_splitCommas_joinOperands t ts h
  cases hj : joinOperands (t :: ts) with
  | nil => exact absurd hj (joinOperands_ne_nil (h t (by simp)) ts)
  | cons c cs =>
    rw [hj] at htrim hsplit
    rw [operandTokens, htrim]
    exact hsplit

/-! ### Printed operands -/

theorem isToken_mnemonicText (m : Mnemonic) : isToken (mnemonicText m) = true := by cases m <;> decide

theorem isToken_regText : ∀ r : Reg, isToken (regText r) = true := by decide

theorem isToken_immText : ∀ f : Nibble, isToken (immText f) = true := by decide

/-- Everything the disassembler can print as operands. -/
theorem operandTexts_cases (m : Mnemonic) (op1 : Reg) (op2 op3 : Nibble) :
    (m.shape = .shapeNone ∧ operandTexts m op1 op2 op3 = []) ∨
    (m.shape = .shapeR ∧ m ≠ .cmp ∧ operandTexts m op1 op2 op3 = [regText op1, regFieldText op2, regFieldText op3]) ∨
    (m = .cmp ∧ operandTexts m op1 op2 op3 = [regFieldText op2, regFieldText op3]) ∨
    (m.shape = .shapeI ∧ m ≠ .jump ∧ operandTexts m op1 op2 op3 = [regText op1, immText op2, immText op3]) ∨
    (m = .jump ∧ operandTexts m op1 op2 op3 = [immText op2, immText op3]) ∨
    (m.shape = .shapeRI ∧ operandTexts m op1 op2 op3 = [regText op1, regFieldText op2, immText op3]) := by
  cases hs : m.shape with
  | shapeNone => simp [operandTexts, hs]
  | shapeR =>
    by_cases hm : m = .cmp
    · subst hm
      exact .inr (.inr (.inl ⟨rfl, rfl⟩))
    · simp [operandTexts, hs, hm]
  | shapeI =>
    by_cases hm : m = .jump
    · subst hm
      exact .inr (.inr (.inr (.inr (.inl ⟨rfl, rfl⟩))))
    · simp [operandTexts, hs, hm]
  | shapeRI => simp [operandTexts, hs]

theorem isToken_of_mem_operandTexts (m : Mnemonic) (op1 : Reg) (op2 op3 : Nibble) :
    ∀ t ∈ operandTexts m op1 op2 op3, isToken t = true := by
  have hreg := isToken_regText
  have hfield (f : Nibble) : isToken (regFieldText f) = true := isToken_regText _
  have himm := isToken_immText
  rcases operandTexts_cases m op1 op2 op3 with ⟨_, he⟩ | ⟨_, _, he⟩ | ⟨_, he⟩ | ⟨_, _, he⟩ | ⟨_, he⟩ | ⟨_, he⟩ <;>
    simp [he, hreg, hfield, himm]

/-- A field of 0 to 7 is the register it names. -/
theorem setWidth_setWidth_of_regFieldOk : ∀ f : Nibble, regFieldOk f = true → (f.setWidth 3).setWidth 4 = f := by
  decide

/-- An op1 that the instruction does not use is 0. -/
theorem op1_eq_zero {i : Instr} (h : i.mnemonic.UsesNoField ∨ i.mnemonic.SkipsOp1) : i.op1 = 0 := by
  have hop1 := Instr.op1_ofFields i.mnemonic i.op1 i.op2 i.op3
  rwa [Instr.ofFields_fields, if_pos h] at hop1

/-- The instructions without operands have all fields 0. -/
theorem fields_eq_zero_of_shapeNone {i : Instr} (h : i.mnemonic.shape = .shapeNone) :
    i.op1 = 0 ∧ i.op2 = 0 ∧ i.op3 = 0 := by
  cases i with
  | nop | halt => exact ⟨rfl, rfl, rfl⟩
  | _ => cases h

/-- The name printed for a register-typed field is read as the field's low three bits. -/
theorem regToken_regFieldText (f : Nibble) : regToken (regFieldText f) = .ok (f.setWidth 3) := regToken_regText _

/-- The operands printed for a well-formed instruction are read as its fields. -/
theorem operandFields_operandTexts {i : Instr} (h : i.wellFormed = true) :
    operandFields i.mnemonic (operandTexts i.mnemonic i.op1 i.op2 i.op3) = .ok (i.op1, i.op2, i.op3) := by
  rw [Instr.wellFormed_eq_fieldsOk] at h
  rcases operandTexts_cases i.mnemonic i.op1 i.op2 i.op3 with
    ⟨hs, he⟩ | ⟨hs, _, he⟩ | ⟨hm, he⟩ | ⟨hs, _, he⟩ | ⟨hm, he⟩ | ⟨hs, he⟩ <;> rw [he]
  · obtain ⟨h1, h2, h3⟩ := fields_eq_zero_of_shapeNone hs
    simp only [operandFields, hs, h1, h2, h3]
  · rw [hs, Shape.fieldsOk, Bool.and_eq_true] at h
    simp only [operandFields, hs, regToken_regText, regToken_regFieldText, bind, Except.bind,
      setWidth_setWidth_of_regFieldOk _ h.1, setWidth_setWidth_of_regFieldOk _ h.2]
    rfl
  · have h1 := op1_eq_zero (.inr (.inl hm))
    rw [hm, Mnemonic.shape, Shape.fieldsOk, Bool.and_eq_true] at h
    simp only [operandFields, hm, Mnemonic.shape, if_true, regToken_regFieldText, bind, Except.bind, h1,
      setWidth_setWidth_of_regFieldOk _ h.1, setWidth_setWidth_of_regFieldOk _ h.2]
    rfl
  · simp only [operandFields, hs, regToken_regText, immToken_immText]
    rfl
  · have h1 := op1_eq_zero (.inr (.inr hm))
    simp only [operandFields, hm, Mnemonic.shape, if_true, immToken_immText, h1]
    rfl
  · rw [hs, Shape.fieldsOk] at h
    simp only [operandFields, hs, regToken_regText, regToken_regFieldText, immToken_immText, bind, Except.bind,
      setWidth_setWidth_of_regFieldOk _ h]
    rfl

/-! ### Lines -/

/-- Every mnemonic has its own spelling. -/
theorem mnemonicOfText_mnemonicText (m : Mnemonic) : mnemonicOfText (mnemonicText m) = some m := by
  cases m <;> decide

/-- A line is assembled from its mnemonic and its operands' fields. -/
theorem assembleLine_of_parts (map : OpcodeMap) {m : Mnemonic} {line : List Char} {op1 : Reg} {op2 op3 : Nibble}
    (htrim : trimText line = line) (hm : line.takeWhile (fun c => !isBlank c) = mnemonicText m)
    (hfields : operandFields m (operandTokens (line.dropWhile fun c => !isBlank c)) = .ok (op1, op2, op3)) :
    assembleLine map line = .ok (some (packFields (map.code m) op1 op2 op3)) := by
  have hne : line ≠ [] := by
    rintro rfl
    exact (isToken_iff.1 (isToken_mnemonicText m)).1 hm.symm
  simp only [assembleLine, htrim, hne, if_false, hm, mnemonicOfText_mnemonicText, hfields]

/-- A printed instruction whose operands are read as its fields assembles to its word. -/
theorem assembleLine_instructionText (map : OpcodeMap) {m : Mnemonic} {op1 : Reg} {op2 op3 : Nibble}
    (h : operandFields m (operandTexts m op1 op2 op3) = .ok (op1, op2, op3)) :
    assembleLine map (instructionText m op1 op2 op3) = .ok (some (packFields (map.code m) op1 op2 op3)) := by
  have hm := isToken_mnemonicText m
  obtain ⟨hmne, hmchars⟩ := isToken_iff.1 hm
  have hpos : ∀ c ∈ mnemonicText m, (!isBlank c) = true := fun c hc => by rw [(hmchars c hc).1]; rfl
  cases hops : operandTexts m op1 op2 op3 with
  | nil =>
    have hline : instructionText m op1 op2 op3 = mnemonicText m := by rw [instructionText, hops]
    rw [hline]
    refine assembleLine_of_parts map (trimText_of_tight (tight_of_isToken hm)) (List.takeWhile_eq_self_iff.2 hpos) ?_
    rw [List.dropWhile_eq_nil_iff.2 hpos]
    rwa [hops] at h
  | cons t ts =>
    have htokens : ∀ u ∈ t :: ts, isToken u = true := fun u hu => isToken_of_mem_operandTexts m op1 op2 op3 u (hops ▸ hu)
    have hline : instructionText m op1 op2 op3 = mnemonicText m ++ [' '] ++ joinOperands (t :: ts) := by
      rw [instructionText, hops]
    have htight : Tight (mnemonicText m ++ [' '] ++ joinOperands (t :: ts)) :=
      tight_append (tight_of_isToken hm) (tight_joinOperands t ts htokens) hmne
        (joinOperands_ne_nil (htokens t (by simp)) ts) [' ']
    rw [hline]
    refine assembleLine_of_parts map (trimText_of_tight htight) ?_ ?_
    · rw [List.append_assoc, List.takeWhile_append_of_pos hpos]
      simp [isBlank]
    · rw [List.append_assoc, List.dropWhile_append_of_pos hpos, List.singleton_append,
        List.dropWhile_cons_of_neg (by decide), operandTokens_joinOperands t ts htokens, ← hops]
      exact h

/-- The word of a well-formed instruction is printed as the instruction, under either policy. -/
theorem disassemble_encode {map : OpcodeMap} (hinj : map.Injective) (policy : RegfieldPolicy) {i : Instr}
    (h : i.wellFormed = true) :
    disassemble map policy (encode map i) = instructionText i.mnemonic i.op1 i.op2 i.op3 := by
  simp [disassemble, mnemonicOf_opcodeField_encode hinj, op1Field_encode, op2Field_encode, op3Field_encode,
    Instr.ofFields_fields, h]

/-- Settles O53: the line is the mnemonic and its operands, and each operand is read as the field it was printed from. -/
theorem assemblyOfDisassemblyIsTheWord : Obligations.AssemblyOfDisassemblyIsTheWord := by
  intro map policy i hinj hwf
  rw [disassemble_encode hinj policy hwf, assembleLine_instructionText map (operandFields_operandTexts hwf), encode]

end Sys2Proof.Machine
end

section
/-! SUPPORT. Proofs of the statements about fetch and execution (40_fetch_execute.md): the formulas of the ALU, the stages
of a step, which states enable one, and the JUMP that goes to itself. -/

namespace Sys2Proof.Machine

/-! ### The ALU -/

theorem add16_toNat (a b : Word) : (add16 a b).toNat = (a.toNat + b.toNat) % 65536 := BitVec.toNat_add a b

theorem sub16_toNat (a b : Word) : ((sub16 a b).toNat : Int) = ((a.toNat : Int) - b.toNat) % 65536 := by
  have ha := a.isLt
  have hb := b.isLt
  rw [sub16, BitVec.toNat_sub]
  omega

theorem addc_fst_toNat (a b : Word) (c : Bool) : (addc a b c).1.toNat = (a.toNat + b.toNat + c.toNat) % 65536 :=
  BitVec.toNat_ofNat _ _

theorem addc_snd_iff (a b : Word) (c : Bool) : (addc a b c).2 = true ↔ 65535 < a.toNat + b.toNat + c.toNat :=
  decide_eq_true_iff

theorem zeroFlag_iff (r : Word) : zeroFlag r = true ↔ r.toNat = 0 := by
  rw [zeroFlag, beq_iff_eq, ← BitVec.toNat_inj]
  rfl

theorem negFlag_iff (r : Word) : negFlag r = true ↔ 32768 ≤ r.toNat := by
  rw [negFlag, BitVec.msb_eq_decide, decide_eq_true_iff]

/-- Settles O17, one lemma per function. -/
theorem aluSumsAndFlagsMeetTheirFormulas : Obligations.AluSumsAndFlagsMeetTheirFormulas := fun a b c =>
  ⟨add16_toNat a b, sub16_toNat a b, addc_fst_toNat a b c, addc_snd_iff a b c, zeroFlag_iff a, negFlag_iff a⟩

theorem shl16_toNat (a : Word) (n : Nibble) : (shl16 a n).toNat = (a.toNat * 2 ^ n.toNat) % 65536 := by
  rw [shl16, BitVec.toNat_shiftLeft, Nat.shiftLeft_eq]

theorem shr16_toNat (a : Word) (n : Nibble) : (shr16 a n).toNat = a.toNat / 2 ^ n.toNat := by
  rw [shr16, BitVec.toNat_ushiftRight, Nat.shiftRight_eq_div_pow]

/-- The bits that SRA adds in, as a number (40_fetch_execute.md rule R103). -/
theorem sra16_toNat (a : Word) (n : Nibble) : (sra16 a n).toNat =
    (a.toNat / 2 ^ n.toNat) ||| (if 32768 ≤ a.toNat then (65535 * 2 ^ (16 - n.toNat)) % 65536 else 0) := by
  have hmsb : a.msb = true ↔ 32768 ≤ a.toNat := negFlag_iff a
  rw [sra16, BitVec.toNat_or, BitVec.toNat_ushiftRight, Nat.shiftRight_eq_div_pow]
  by_cases h : 32768 ≤ a.toNat
  · rw [if_pos (hmsb.2 h), if_pos h, BitVec.toNat_shiftLeft, Nat.shiftLeft_eq]
    rfl
  · rw [if_neg (mt hmsb.1 h), if_neg h]
    rfl

/-- Settles O56, one lemma per shift function. -/
theorem logicAndShiftFunctionsMeetTheirFormulas : Obligations.LogicAndShiftFunctionsMeetTheirFormulas := fun a b n =>
  ⟨BitVec.toNat_and a b, BitVec.toNat_or a b, BitVec.toNat_xor a b, shl16_toNat a n, shr16_toNat a n, sra16_toNat a n⟩

/-- The formula of R103 is the arithmetic shift: the bits it adds in are the `n` highest. -/
theorem sra16_eq_sshiftRight (a : Word) (n : Nibble) : sra16 a n = a.sshiftRight n.toNat := by
  have hn := n.isLt
  cases hmsb : a.msb with
  | false => simp [sra16, hmsb, BitVec.sshiftRight_eq_of_msb_false]
  | true =>
    apply BitVec.eq_of_getLsbD_eq
    intro k hk
    have hones : (0xFFFF : Word) = BitVec.allOnes 16 := rfl
    rw [sra16, if_pos hmsb, hones, BitVec.getLsbD_or, BitVec.getLsbD_ushiftRight, BitVec.getLsbD_shiftLeft,
      BitVec.getLsbD_allOnes, BitVec.getLsbD_sshiftRight]
    by_cases hlow : n.toNat + k < 16
    · have hkept : k < 16 - n.toNat := by omega
      simp [hlow, hkept, hk]
    · have hadded : ¬ k < 16 - n.toNat := by omega
      have hone : k - (16 - n.toNat) < 16 := by omega
      simp [hlow, hadded, hone, hk, hmsb]

/-- Settles O18: SRA is the arithmetic shift, which divides rounding down. -/
theorem sraIsSignedFloorDivision : Obligations.SraIsSignedFloorDivision := by
  intro a n
  rw [sra16_eq_sshiftRight, BitVec.toInt_sshiftRight, Int.shiftRight_eq_div_pow]
  norm_cast

/-! ### Fetch and decode -/

theorem State.fetchDecode_of_le {s : State} (h : 256 ≤ s.pc.toNat) : s.fetchDecode = .error .addressOutOfRange := by
  rcases s.fetchDecode_cases with ⟨_, he⟩ | ⟨hpc, _⟩ | ⟨i, ⟨hpc, _⟩, _⟩
  · exact he
  · omega
  · omega

theorem State.Fetches.unique {s : State} {i j : Instr} (hi : s.Fetches i) (hj : s.Fetches j) : i = j :=
  Except.ok.inj (hi.2.symm.trans hj.2)

/-- A word whose opcode has no mnemonic is no instruction. -/
theorem State.not_fetches_of_reserved {s : State}
    (h : s.params.opcodeMap.mnemonicOf (opcodeField (s.imem.read s.pc.toNat)) = none) (i : Instr) : ¬ s.Fetches i :=
  fun hi => exists_decode_eq_ok_iff.1 ⟨i, hi.2⟩ h

theorem State.fetchDecode_of_reserved {s : State} (hpc : s.pc.toNat < 256)
    (h : s.params.opcodeMap.mnemonicOf (opcodeField (s.imem.read s.pc.toNat)) = none) :
    s.fetchDecode = .error .unknownOpcode := by
  rcases s.fetchDecode_cases with ⟨hout, _⟩ | ⟨_, _, he⟩ | ⟨i, hi, _⟩
  · omega
  · exact he
  · exact absurd hi (State.not_fetches_of_reserved h i)

theorem State.fetchDecode_of_fetches {s : State} {i : Instr} (h : s.Fetches i) : s.fetchDecode = .ok i := by
  rcases s.fetchDecode_cases with ⟨hout, _⟩ | ⟨_, hreserved, _⟩ | ⟨j, hj, he⟩
  · exact absurd h.1 (Nat.not_lt.2 hout)
  · exact absurd h (State.not_fetches_of_reserved hreserved i)
  · rw [he, h.unique hj]

/-! ### The stages of a step -/

/-- A fault of fetch or decode ends the step with the status changed and nothing else. -/
theorem step_of_fetchDecode_error {s : State} {reason : FaultReason} (hrun : s.status = .running)
    (h : s.fetchDecode = .error reason) : step s = .next (FaultedBy reason s) := by
  rw [step_of_running hrun, State.fetchExecute, h]
  rfl

/-- Without a fault of fetch or decode the step is the execution of the instruction. -/
theorem step_of_fetches {s : State} {i : Instr} (hrun : s.status = .running) (h : s.Fetches i) : step s = exec i s := by
  rw [step_of_running hrun, State.fetchExecute, State.fetchDecode_of_fetches h]

/-- Settles O21: fetch and decode answer the instruction and the step adds nothing to its execution. -/
theorem stepRunsDecodedInstruction : Obligations.StepRunsDecodedInstruction := fun _ _ => step_of_fetches

/-- Settles O22: fetch, decode, the check of the register fields and execution, each where those before it do not fault. -/
theorem stepStagesInOrder : Obligations.StepStagesInOrder := by
  intro s hrun
  refine ⟨fun hpc => ?_, fun hpc hm => ?_, fun i hi hp hill => ?_, fun i hi _ => step_of_fetches hrun hi⟩
  · exact step_of_fetchDecode_error hrun (State.fetchDecode_of_le hpc)
  · exact step_of_fetchDecode_error hrun (State.fetchDecode_of_reserved hpc (OpcodeMap.mnemonicOf_eq_none.2 hm))
  · exact (step_of_fetches hrun hi).trans (exec_of_illFormed hp hill)

/-! ### Which states enable a step -/

/-- Completing an instruction answers a next state, whether it raised or not. -/
theorem exists_complete_eq_next (s : State) (x : Except FaultReason State) : ∃ t, complete s x = .next t := by
  cases x with
  | ok t => exact ⟨t, complete_ok s t⟩
  | error reason => exact ⟨s.raise reason, complete_error s reason⟩

/-- Every instruction answers a next state, by itself or through `complete`. -/
theorem exists_exec_eq_next (i : Instr) (s : State) : ∃ t, exec i s = .next t := by
  cases i with
  | nop | halt | ldih | addi | subi | jump | jmpr | bz | bnz | bn | bnn | bc | bnc => exact ⟨_, rfl⟩
  | load | store | add | addc | sub | subc | cmp | and | or | xor | sll | srl | sla | sra =>
    exact exists_complete_eq_next s _

/-- Settles O24: no instruction is refused, and a fault it raises is a next state. -/
theorem everyInstructionHasANextState : Obligations.EveryInstructionHasANextState := exists_exec_eq_next

theorem exists_step_eq_next_iff {s : State} : (∃ t, step s = .next t) ↔ s.status = .running := by
  constructor
  · rintro ⟨t, h⟩
    exact (step_cases h).1
  · intro hrun
    rcases s.fetchDecode_cases with ⟨_, he⟩ | ⟨_, _, he⟩ | ⟨i, hi, _⟩
    · exact ⟨_, step_of_fetchDecode_error hrun he⟩
    · exact ⟨_, step_of_fetchDecode_error hrun he⟩
    · exact (exists_exec_eq_next i s).imp fun t ht => (step_of_fetches hrun hi).trans ht

/-- From Running, HALT alone leads to Halted: every other effect keeps the status or takes a fault. -/
theorem exec_halted_iff {i : Instr} {s t : State} (hrun : s.status = .running) (h : exec i s = .next t) :
    t.status = .halted ↔ i = .halt := by
  constructor
  · intro ht
    cases exec_effect h with
    | halts hi => exact hi
    | illegalRegister | outOfRange => cases ht
    | writes | writesCarry | compares | stores | transfers => cases hrun.symm.trans ht
  · rintro rfl
    cases h
    split <;> rfl

/-- Settles O23: a fault of fetch or decode leads to Faulted, and of the instructions HALT alone to Halted. -/
theorem stepIsEnabledExactlyInRunning : Obligations.StepIsEnabledExactlyInRunning := by
  refine ⟨fun _ => rfl, fun s => ⟨exists_step_eq_next_iff, step_of_halted, fun _ => step_of_faulted, fun t h => ?_⟩⟩
  obtain ⟨hrun, ⟨hpc, rfl⟩ | ⟨_, hm, rfl⟩ | ⟨i, hi, hexec⟩⟩ := step_cases h
  · exact iff_of_false nofun fun hhalt => absurd hhalt.1 (Nat.not_lt.2 hpc)
  · exact iff_of_false nofun (State.not_fetches_of_reserved (OpcodeMap.mnemonicOf_eq_none.2 hm) _)
  · rw [exec_halted_iff hrun hexec]
    exact ⟨fun heq => heq ▸ hi, fun hhalt => hi.unique hhalt⟩

/-! ### The JUMP to itself -/

theorem State.setPc_self (s : State) : s.setPc s.pc = s := rfl

/-- A step at a JUMP to its own address answers the same state. -/
theorem step_of_jump_to_itself {s : State} {op2 op3 : Nibble} (hrun : s.status = .running)
    (hfetch : s.Fetches (.jump op2 op3)) (hpc : s.pc.toNat = op2.toNat * 16 + op3.toNat) : step s = .next s := by
  have htarget : imm8Word op2 op3 = s.pc := BitVec.eq_of_toNat_eq ((imm8Word_toNat op2 op3).trans hpc.symm)
  calc step s
      = .next (s.setPc (imm8Word op2 op3)) := step_of_fetches hrun hfetch
    _ = .next s := by rw [htarget, State.setPc_self]

/-- Settles O39: being in that state is kept by every step from it. -/
theorem jumpToItselfNeverEnds : Obligations.JumpToItselfNeverEnds := by
  intro s op2 op3 hrun hfetch hpc n
  refine State.runFor_induction (P := fun u => u = s) ?_ n rfl
  rintro u t rfl ht
  rw [step_of_jump_to_itself hrun hfetch hpc] at ht
  cases ht
  rfl

/-! ### A placed instruction -/

/-- A placed instruction always stands inside instruction memory. -/
theorem State.fetchSlot_toNat_lt (s : State) : s.fetchSlot.toNat < 256 := by
  rw [State.fetchSlot]
  split
  · assumption
  · decide

/-- The placed word is the one the next step fetches. -/
theorem State.withFetchWord_fetches {s : State} {w : Nat} {i : Instr} (hwf : s.imem.wf = true)
    (hdecode : decode s.params.opcodeMap (BitVec.ofNat 16 w) = .ok i) : (s.withFetchWord 16 w).Fetches i := by
  refine ⟨s.fetchSlot_toNat_lt, ?_⟩
  have hword : BitVec.ofNat 16 (w % 2 ^ 16) = BitVec.ofNat 16 w := BitVec.eq_of_toNat_eq (by simp)
  have hread : (s.withFetchWord 16 w).imem.read s.fetchSlot.toNat = BitVec.ofNat 16 w :=
    (Memory.read_write_same _ _ hwf).trans hword
  exact (congrArg (decode s.params.opcodeMap) hread).trans hdecode

/-- Settles O45: the placed word is fetched, and placing sets Running. -/
theorem placedInstructionIsTheNextStep : Obligations.PlacedInstructionIsTheNextStep := fun _ _ _ hwf hdecode =>
  step_of_fetches rfl (State.withFetchWord_fetches hwf hdecode)

end Sys2Proof.Machine
end

section
/-! SUPPORT. Proofs of the statements about NOP, HALT and the end of a run (41_system.md): what the two instructions do,
that HALT_ADVANCES_PC moves nothing but the final pc, and that a run that ended shows why. -/

namespace Sys2Proof.Machine

/-! ### NOP and HALT -/

/-- The word of a mnemonic with any fields decodes to the instruction of the mnemonic with the fields it uses. -/
theorem encodes_ofFields (m : Mnemonic) (op1 : Reg) (op2 op3 : Nibble) :
    Encodes m op1 op2 op3 (Instr.ofFields m op1 op2 op3) := by
  intro map hinj
  have hopcode : map.mnemonicOf (opcodeField (packFields (map.code m) op1 op2 op3)) = some m := by
    rw [opcodeField_packFields, OpcodeMap.mnemonicOf_code hinj]
  rw [← packFields_toNat, BitVec.ofNat_toNat, BitVec.setWidth_eq, decode_of_mnemonicOf hopcode, op1Field_packFields,
    op2Field_packFields, op3Field_packFields]

/-- Settles O1: NOP is the advance of pc. -/
theorem nopOnlyAdvancesPc : Obligations.NopOnlyAdvancesPc :=
  ⟨encodes_ofFields .nop, fun s =>
    ⟨s.advance, rfl, s.nextPc_toNat, s.readReg_advance, ⟨rfl, rfl, rfl⟩, fun _ => rfl, fun _ => rfl, rfl, rfl⟩⟩

theorem exec_halt_of_advances {s : State} (hp : s.params.haltAdvancesPc = true) :
    exec .halt s = .next s.halt.advance :=
  congrArg _ (if_pos hp)

theorem exec_halt_of_stays {s : State} (hp : s.params.haltAdvancesPc = false) : exec .halt s = .next s.halt :=
  congrArg _ (if_neg (by simp [hp]))

/-- Settles O2: in each case of the parameter HALT sets Halted, where no step is enabled. -/
theorem haltEndsTheRun : Obligations.HaltEndsTheRun := by
  refine ⟨encodes_ofFields .halt, fun s => ?_⟩
  cases hp : s.params.haltAdvancesPc with
  | true =>
    exact ⟨s.halt.advance, exec_halt_of_advances hp, rfl, fun _ => s.nextPc_toNat, nofun, s.readReg_halt,
      ⟨rfl, rfl, rfl⟩, fun _ => rfl, fun _ => rfl, rfl, step_of_halted rfl⟩
  | false =>
    exact ⟨s.halt, exec_halt_of_stays hp, rfl, nofun, fun _ => rfl, s.readReg_halt,
      ⟨rfl, rfl, rfl⟩, fun _ => rfl, fun _ => rfl, rfl, step_of_halted rfl⟩

/-! ### HALT_ADVANCES_PC -/

/-- The state with another value of HALT_ADVANCES_PC. -/
def State.withHaltAdvancesPc (s : State) (b : Bool) : State := { s with params.haltAdvancesPc := b }

/-- The answer with its next state, where it has one, given another value of HALT_ADVANCES_PC. -/
def resultWithHaltAdvancesPc (b : Bool) : Result → Result
  | .next t => .next (t.withHaltAdvancesPc b)
  | .fault r => .fault r
  | .refused r => .refused r

section
variable {s : State} {b : Bool} {rA : Reg} {op2 op3 : Nibble}

/-- A data-memory write hands on the other value, and faults as before. -/
theorem State.memWrite_withHaltAdvancesPc (a v : Word) :
    (s.withHaltAdvancesPc b).memWrite a v = (s.memWrite a v).map (·.withHaltAdvancesPc b) := by
  simp only [State.memWrite]
  split <;> rfl

/-- Where an instruction begins with a read `x` that does not depend on the parameter, what follows it decides. -/
theorem complete_bind_withHaltAdvancesPc {α : Type} (x : Except FaultReason α) {k k' : α → Except FaultReason State}
    (h : ∀ a, complete (s.withHaltAdvancesPc b) (k' a) = resultWithHaltAdvancesPc b (complete s (k a))) :
    complete (s.withHaltAdvancesPc b) (x >>= k') = resultWithHaltAdvancesPc b (complete s (x >>= k)) := by
  cases x with
  | error reason => rfl
  | ok a => exact h a

theorem opBranch_withHaltAdvancesPc (cond : Bool) :
    opBranch cond rA op2 op3 (s.withHaltAdvancesPc b) =
      resultWithHaltAdvancesPc b (opBranch cond rA op2 op3 s) := by
  cases cond <;> rfl

theorem execStore_withHaltAdvancesPc :
    execStore rA op2 op3 (s.withHaltAdvancesPc b) = resultWithHaltAdvancesPc b (execStore rA op2 op3 s) := by
  refine complete_bind_withHaltAdvancesPc (regfield s.params.regfieldPolicy op2) fun c => ?_
  have hread (q : Reg) : (s.withHaltAdvancesPc b).readReg q = s.readReg q := rfl
  rw [State.memWrite_withHaltAdvancesPc, hread, hread]
  cases s.memWrite (effectiveAddress (s.readReg c) op3) (s.readReg rA) <;> rfl

/-- The answer of an instruction other than HALT does not depend on the parameter, which it hands on. -/
theorem exec_withHaltAdvancesPc {i : Instr} (hi : i ≠ .halt) :
    exec i (s.withHaltAdvancesPc b) = resultWithHaltAdvancesPc b (exec i s) := by
  cases i with
  | halt => exact absurd rfl hi
  | nop | ldih | addi | subi | jump => rfl
  | jmpr | bz | bnz | bn | bnn | bc | bnc => exact opBranch_withHaltAdvancesPc _
  | sll | srl | sla | sra => exact complete_bind_withHaltAdvancesPc _ fun _ => rfl
  | add | addc | sub | subc | cmp | and | or | xor =>
    exact complete_bind_withHaltAdvancesPc _ fun _ => complete_bind_withHaltAdvancesPc _ fun _ => rfl
  | load => exact complete_bind_withHaltAdvancesPc _ fun _ => complete_bind_withHaltAdvancesPc _ fun _ => rfl
  | store => exact execStore_withHaltAdvancesPc

end

/-- With any value of the parameter HALT halts in a state that differs in the parameter and in pc only. -/
theorem exec_halt_withHaltAdvancesPc (s : State) (b : Bool) :
    ∃ pc, exec .halt (s.withHaltAdvancesPc b) = .next ((s.halt.setPc pc).withHaltAdvancesPc b) := by
  cases b with
  | true => exact ⟨s.nextPc, exec_halt_of_advances rfl⟩
  | false => exact ⟨s.pc, exec_halt_of_stays rfl⟩

/-- Settles O31: every other instruction hands the parameter on, and HALT reads it for pc alone. -/
theorem haltParameterMovesOnlyTheFinalPc : Obligations.HaltParameterMovesOnlyTheFinalPc := by
  intro i s b t h
  by_cases hi : i = .halt
  · subst hi
    obtain ⟨pc, ht⟩ := exec_halt_withHaltAdvancesPc s s.params.haltAdvancesPc
    obtain ⟨pc', hu⟩ := exec_halt_withHaltAdvancesPc s b
    cases h.symm.trans ht
    exact ⟨_, hu, rfl, absurd rfl⟩
  · refine ⟨t.withHaltAdvancesPc b, ?_, rfl, fun _ => rfl⟩
    calc exec i (s.withHaltAdvancesPc b)
        = resultWithHaltAdvancesPc b (exec i s) := exec_withHaltAdvancesPc hi
      _ = .next (t.withHaltAdvancesPc b) := by rw [h, resultWithHaltAdvancesPc]

/-! ### The end of a run explained -/

theorem effectiveAddress_toNat (base : Word) (op3 : Nibble) :
    (effectiveAddress base op3).toNat = (base.toNat + op3.toNat) % 65536 := by
  rw [effectiveAddress, BitVec.toNat_add, imm4Word_toNat]

/-- A run that has not ended has no end to explain. -/
theorem State.endExplained_of_running {s : State} (h : s.status = .running) : s.EndExplained := by
  simp only [State.EndExplained, h]

/-- The state HALT leads to shows the HALT word: at pc, or one before it where pc advanced, which wraps for no address
of instruction memory. -/
theorem endExplained_of_halt {s t : State} (hfetch : s.Fetches .halt) (h : exec .halt s = .next t) :
    t.EndExplained := by
  obtain ⟨hpc, hdecode⟩ := hfetch
  cases hp : s.params.haltAdvancesPc with
  | true =>
    cases h.symm.trans (exec_halt_of_advances hp)
    have hnext : s.nextPc.toNat = s.pc.toNat + 1 := by rw [State.nextPc_toNat]; omega
    exact ⟨s.pc.toNat, hpc, hdecode, hnext.trans (if_pos hp).symm⟩
  | false =>
    cases h.symm.trans (exec_halt_of_stays hp)
    exact ⟨s.pc.toNat, hpc, hdecode, (if_neg (by simp [hp])).symm⟩

/-- An instruction fetched in Running leaves the cause of its fault to be seen, or is HALT, or lets the run go on. -/
theorem exec_explainsEnd {i : Instr} {s t : State} (hrun : s.status = .running) (hfetch : s.Fetches i)
    (h : exec i s = .next t) : t.EndExplained := by
  cases exec_effect h with
  | illegalRegister hill hpolicy => exact ⟨hpolicy, i, hfetch, hill⟩
  | outOfRange rA op2 op3 hi hnames hea =>
    rw [effectiveAddress_toNat] at hea
    have haccess : s.Fetches (.load rA op2 op3) ∨ s.Fetches (.store rA op2 op3) := by
      rcases hi with rfl | rfl
      · exact .inl hfetch
      · exact .inr hfetch
    exact .inr ⟨rA, op2, op3, haccess, hnames, hea⟩
  | halts hi => subst hi; exact endExplained_of_halt hfetch h
  | writes | writesCarry | compares | stores | transfers => exact State.endExplained_of_running hrun

/-- Settles O55: fetch and decode fault where pc or the word at pc shows it, and execution ends a run as
`exec_explainsEnd` says. -/
theorem everyStepExplainsItsEnd : Obligations.EveryStepExplainsItsEnd := by
  intro s t h
  obtain ⟨hrun, ⟨hpc, rfl⟩ | ⟨hpc, hm, rfl⟩ | ⟨i, hfetch, hexec⟩⟩ := step_cases h
  · exact .inl hpc
  · exact ⟨hpc, hm⟩
  · exact exec_explainsEnd hrun hfetch hexec

/-- Settles O38: a Running state has no end to explain, and every step explains the end it leads to. -/
theorem everyEndIsExplainedByTheFinalState : Obligations.EveryEndIsExplainedByTheFinalState := fun n _ hrun =>
  State.runFor_induction (fun s t _ h => everyStepExplainsItsEnd s t h) n (State.endExplained_of_running hrun)

end Sys2Proof.Machine
end

section
/-! SUPPORT. Proofs of the statements about LOAD and STORE (42_load_store.md): inside data memory the one writes a
register and the other a cell, and nothing else but pc; outside data memory, or where the base field names no register,
only the status changes. -/

namespace Sys2Proof.Machine

section
variable {s : State} {op2 op3 : Nibble} (rA : Reg)

/-! ### Outside data memory -/

/-- A LOAD outside data memory takes AddressOutOfRange. -/
theorem exec_load_of_le (hnames : NamesReg s op2)
    (hea : 256 ≤ (effectiveAddress (s.readReg (fieldReg op2)) op3).toNat) :
    exec (.load rA op2 op3) s = .next (FaultedBy .addressOutOfRange s) := by
  rcases execLoad_cases rA op2 op3 s with ⟨_, hlt, _⟩ | ⟨_, _, he⟩ | ⟨hn, _⟩
  · omega
  · exact he
  · exact absurd hnames hn

/-- A STORE outside data memory takes AddressOutOfRange. -/
theorem exec_store_of_le (hnames : NamesReg s op2)
    (hea : 256 ≤ (effectiveAddress (s.readReg (fieldReg op2)) op3).toNat) :
    exec (.store rA op2 op3) s = .next (FaultedBy .addressOutOfRange s) := by
  rcases execStore_cases rA op2 op3 s with ⟨_, hlt, _⟩ | ⟨_, _, he⟩ | ⟨hn, _⟩
  · omega
  · exact he
  · exact absurd hnames hn

end

/-! ### Effect, frame and faults -/

/-- Settles O3: inside data memory LOAD is a register write and the advance of pc; the two faults are the other cases. -/
theorem loadReadsOneDataWord : Obligations.LoadReadsOneDataWord := by
  refine ⟨encodes_ofFields .load, fun s rA op2 op3 =>
    ⟨effectiveAddress_toNat _ _, fun hnames hea => ?_, exec_load_of_le rA, execLoad_of_not_namesReg⟩⟩
  refine ⟨_, exec_load_of_lt rA hnames hea, ?_, fun r hr => ?_, ⟨rfl, rfl, rfl⟩, fun _ => rfl, fun _ => rfl,
    ⟨rfl, rfl⟩, s.nextPc_toNat⟩
  · rw [State.readReg_advance, State.readReg_writeReg_same]
  · rw [State.readReg_advance, State.readReg_writeReg_other s _ hr]

/-- Settles O4: inside data memory STORE is a cell write and the advance of pc, and only reading the written cell back
needs the canonical form; the two faults are the other cases. -/
theorem storeWritesOneDataWord : Obligations.StoreWritesOneDataWord := by
  refine ⟨encodes_ofFields .store, fun s rA op2 op3 hwf =>
    ⟨effectiveAddress_toNat _ _, fun hnames hea => ?_, exec_store_of_le rA, execStore_of_not_namesReg⟩⟩
  refine ⟨_, exec_store_of_lt rA hnames hea, ?_, fun a ha => ?_, s.readReg_advance, ⟨rfl, rfl, rfl⟩, fun _ => rfl,
    ⟨rfl, rfl⟩, s.nextPc_toNat⟩
  · exact Memory.read_write_same _ _ hwf
  · exact Memory.read_write_other s.dmem _ ha

end Sys2Proof.Machine
end

section
/-! SUPPORT. Proofs of the statements about arithmetic and compare (43_arithmetic.md): each instruction form once, from
the function it applies and the facts about that function; and that two ADDC or SUBC chain through CF. -/

namespace Sys2Proof.Machine

/-! ### What a destination write leaves unchanged -/

/-- The frame of an instruction that writes one register. -/
theorem writeReg_advance_frame (s : State) (rA : Reg) (v : Word) :
    SameRegsBut rA s (s.writeReg rA v).advance ∧ SameFlags s (s.writeReg rA v).advance ∧
      SameCode s (s.writeReg rA v).advance ∧ SameData s (s.writeReg rA v).advance ∧
      SameRun s (s.writeReg rA v).advance ∧ PcAdvanced s (s.writeReg rA v).advance :=
  ⟨fun _ hr => s.readReg_writeReg_other v hr, ⟨rfl, rfl, rfl⟩, fun _ => rfl, fun _ => rfl, ⟨rfl, rfl⟩, s.nextPc_toNat⟩

theorem readReg_writeReg_advance_same (s : State) (rA : Reg) (v : Word) :
    (s.writeReg rA v).advance.readReg rA = v := by
  rw [State.readReg_advance, State.readReg_writeReg_same]

/-! ### Instructions whose fields name registers -/

section
variable {s : State} {rA : Reg} {op2 op3 : Nibble}

theorem opRegReg_of_namesReg (f : Word → Word → Word) (h2 : NamesReg s op2) (h3 : NamesReg s op3) :
    opRegReg f rA op2 op3 s =
      .next (s.writeReg rA (f (s.readReg (fieldReg op2)) (s.readReg (fieldReg op3)))).advance :=
  ((opRegReg_cases f rA op2 op3 s).resolve_right fun h => h.1 ⟨h2, h3⟩).2.2

theorem opRegRegCarry_of_namesReg (f : Word → Word → Bool → Word × Bool) (h2 : NamesReg s op2)
    (h3 : NamesReg s op3) :
    opRegRegCarry f rA op2 op3 s =
      .next ((s.writeReg rA (f (s.readReg (fieldReg op2)) (s.readReg (fieldReg op3)) s.cf).1).setCarry
        (f (s.readReg (fieldReg op2)) (s.readReg (fieldReg op3)) s.cf).2).advance :=
  ((opRegRegCarry_cases f rA op2 op3 s).resolve_right fun h => h.1 ⟨h2, h3⟩).2.2

theorem execCmp_of_namesReg (h2 : NamesReg s op2) (h3 : NamesReg s op3) :
    execCmp op2 op3 s =
      .next (s.setNegZero (sub16 (s.readReg (fieldReg op2)) (s.readReg (fieldReg op3)))).advance :=
  ((execCmp_cases op2 op3 s).resolve_right fun h => h.1 ⟨h2, h3⟩).2.2

end

/-! ### The instruction forms -/

section
variable {m : Mnemonic} {ctor : Reg → Nibble → Nibble → Instr}

/-- An instruction that applies `f` to its destination and an immediate has the form for every relation that `f` meets. -/
theorem regImmForm_of_exec {f : Word → Word → Word} {imm : Nibble → Nibble → Word} {rel : Word → Nat → Word → Prop}
    (hencodes : ∀ rA op2 op3, Encodes m rA op2 op3 (ctor rA op2 op3))
    (hexec : ∀ s rA op2 op3, exec (ctor rA op2 op3) s = opRegImm f rA (imm op2 op3) s)
    (hrel : ∀ x op2 op3, rel x (op2.toNat * 16 + op3.toNat) (f x (imm op2 op3))) : RegImmForm m ctor rel := by
  refine ⟨hencodes, fun s rA op2 op3 => ⟨_, hexec s rA op2 op3, ?_, writeReg_advance_frame s rA _⟩⟩
  rw [readReg_writeReg_advance_same]
  exact hrel _ op2 op3

/-- An instruction that applies `f` to two source registers has the form for every relation that `f` meets. -/
theorem regRegForm_of_exec {f : Word → Word → Word} {rel : Word → Word → Word → Prop}
    (hencodes : ∀ rA op2 op3, Encodes m rA op2 op3 (ctor rA op2 op3))
    (hexec : ∀ s rA op2 op3, exec (ctor rA op2 op3) s = opRegReg f rA op2 op3 s)
    (hrel : ∀ x y, rel x y (f x y)) : RegRegForm m ctor rel := by
  refine ⟨hencodes, fun s rA op2 op3 => ⟨fun h2 h3 => ?_, fun hn => ?_⟩⟩
  · refine ⟨_, (hexec s rA op2 op3).trans (opRegReg_of_namesReg f h2 h3), ?_, writeReg_advance_frame s rA _⟩
    rw [readReg_writeReg_advance_same]
    exact hrel _ _
  · exact (hexec s rA op2 op3).trans (opRegReg_of_not_namesReg f hn)

/-- An instruction that applies `f` to two source registers and CF has the form for every relation that `f` meets. -/
theorem regRegCarryForm_of_exec {f : Word → Word → Bool → Word × Bool}
    {rel : Word → Word → Bool → Word → Bool → Prop}
    (hencodes : ∀ rA op2 op3, Encodes m rA op2 op3 (ctor rA op2 op3))
    (hexec : ∀ s rA op2 op3, exec (ctor rA op2 op3) s = opRegRegCarry f rA op2 op3 s)
    (hrel : ∀ x y c, rel x y c (f x y c).1 (f x y c).2) : RegRegCarryForm m ctor rel := by
  refine ⟨hencodes, fun s rA op2 op3 => ⟨fun h2 h3 => ?_, fun hn => ?_⟩⟩
  · refine ⟨_, (hexec s rA op2 op3).trans (opRegRegCarry_of_namesReg f h2 h3), ?_,
      fun _ hr => s.readReg_writeReg_other _ hr, rfl, rfl, fun _ => rfl, fun _ => rfl, ⟨rfl, rfl⟩, s.nextPc_toNat⟩
    rw [State.readReg_advance, State.readReg_setCarry, State.readReg_writeReg_same]
    exact hrel _ _ s.cf
  · exact (hexec s rA op2 op3).trans (opRegRegCarry_of_not_namesReg f hn)

end

/-! ### Immediates -/

/-- Settles O5: the immediate is a multiple of 256, so the low byte stays. -/
theorem ldihAddsIntoTheHighByte : Obligations.LdihAddsIntoTheHighByte := by
  refine regImmForm_of_exec (encodes_ofFields .ldih) (fun _ _ _ _ => rfl) fun x op2 op3 => ?_
  have hsum : (add16 x (immHWord op2 op3)).toNat = (x.toNat + (op2.toNat * 16 + op3.toNat) * 256) % 65536 := by
    rw [add16_toNat, immHWord_toNat]
  exact ⟨hsum, by omega⟩

/-- Settles O6: the sum of R99 with the value of imm8. -/
theorem addiAddsAnUnsignedByte : Obligations.AddiAddsAnUnsignedByte := by
  refine regImmForm_of_exec (encodes_ofFields .addi) (fun _ _ _ _ => rfl) fun x op2 op3 => ?_
  rw [add16_toNat, imm8Word_toNat]

/-- Settles O7: the difference of R99 with the value of imm8. -/
theorem subiSubtractsAnUnsignedByte : Obligations.SubiSubtractsAnUnsignedByte := by
  refine regImmForm_of_exec (encodes_ofFields .subi) (fun _ _ _ _ => rfl) fun x op2 op3 => ?_
  rw [sub16_toNat, imm8Word_toNat]

/-! ### Sums and differences of two registers -/

/-- Settles O8: the form of the two instructions with the sum and the difference of R99. -/
theorem addAndSubWrapWithoutFlags : Obligations.AddAndSubWrapWithoutFlags :=
  ⟨regRegForm_of_exec (encodes_ofFields .add) (fun _ _ _ _ => rfl) add16_toNat,
    regRegForm_of_exec (encodes_ofFields .sub) (fun _ _ _ _ => rfl) sub16_toNat⟩

/-- The carry is what the low 16 bits lack of the exact sum, which is below 2 * 65536. -/
theorem addc_exact (a b : Word) (c : Bool) :
    (addc a b c).1.toNat + 65536 * (addc a b c).2.toNat = a.toNat + b.toNat + c.toNat := by
  have ha := a.isLt
  have hb := b.isLt
  have hc := c.toNat_le
  rw [addc_fst_toNat]
  by_cases hover : 65535 < a.toNat + b.toNat + c.toNat
  · rw [(addc_snd_iff a b c).2 hover, Bool.toNat_true]
    omega
  · rw [Bool.eq_false_of_not_eq_true (mt (addc_snd_iff a b c).1 hover), Bool.toNat_false]
    omega

theorem subc_fst_toNat (a b : Word) (c : Bool) :
    ((subc a b c).1.toNat : Int) = ((a.toNat : Int) - b.toNat - c.toNat) % 65536 := by
  rw [subc, BitVec.toNat_ofInt]
  omega

theorem subc_snd_iff (a b : Word) (c : Bool) : (subc a b c).2 = true ↔ (a.toNat : Int) - b.toNat - c.toNat < 0 :=
  decide_eq_true_iff

/-- The borrow is what the low 16 bits have over the exact difference, which is at least -65536. -/
theorem subc_exact (a b : Word) (c : Bool) :
    ((subc a b c).1.toNat : Int) - 65536 * (subc a b c).2.toNat = (a.toNat : Int) - b.toNat - c.toNat := by
  have ha := a.isLt
  have hb := b.isLt
  have hc := c.toNat_le
  rw [subc_fst_toNat]
  by_cases hneg : (a.toNat : Int) - b.toNat - c.toNat < 0
  · rw [(subc_snd_iff a b c).2 hneg, Bool.toNat_true]
    omega
  · rw [Bool.eq_false_of_not_eq_true (mt (subc_snd_iff a b c).1 hneg), Bool.toNat_false]
    omega

/-- Settles O9: the form of the two instructions with the exact sum and difference of R100 and R101. -/
theorem addcAndSubcAreExactWithCarry : Obligations.AddcAndSubcAreExactWithCarry :=
  ⟨regRegCarryForm_of_exec (f := addc) (encodes_ofFields .addc) (fun _ _ _ _ => rfl) addc_exact,
    regRegCarryForm_of_exec (f := subc) (encodes_ofFields .subc) (fun _ _ _ _ => rfl) subc_exact⟩

/-! ### CMP -/

/-- A difference is zero exactly for equal words. -/
theorem zeroFlag_sub16_iff (a b : Word) : zeroFlag (sub16 a b) = true ↔ a = b := by
  rw [zeroFlag, beq_iff_eq, sub16]
  exact sub_eq_zero

/-- NF of a difference is bit 15 of the difference modulo 2^16. -/
theorem negFlag_sub16_iff (a b : Word) :
    negFlag (sub16 a b) = true ↔ 32768 ≤ ((a.toNat : Int) - b.toNat) % 65536 := by
  rw [negFlag_iff, ← sub16_toNat]
  exact Int.ofNat_le.symm

/-- Settles O10: CMP writes the two flags of the difference and advances pc, or takes the fault of a field. -/
theorem cmpWritesOnlyNegativeAndZero : Obligations.CmpWritesOnlyNegativeAndZero := by
  refine ⟨encodes_ofFields .cmp, fun s op2 op3 => ⟨fun h2 h3 => ?_, execCmp_of_not_namesReg⟩⟩
  exact ⟨_, execCmp_of_namesReg h2 h3, zeroFlag_sub16_iff _ _, negFlag_sub16_iff _ _, rfl, fun _ => rfl, fun _ => rfl,
    fun _ => rfl, ⟨rfl, rfl⟩, s.nextPc_toNat⟩

/-! ### Chains through CF -/

/-- A register's index as a field names a register under every policy. -/
theorem namesReg_setWidth (s : State) (r : Reg) : NamesReg s (r.setWidth 4) :=
  .inl (lt_of_eq_of_lt (BitVec.toNat_setWidth_of_le (by decide)) r.isLt)

/-- The register that a register's index as a field names is that register. -/
theorem fieldReg_setWidth (r : Reg) : fieldReg (r.setWidth 4) = r := by
  rw [← setWidth3_eq_fieldReg, BitVec.setWidth_setWidth_of_le r (by decide), BitVec.setWidth_eq]

/-- An instruction of the form, with registers for its two fields, completes. -/
theorem RegRegCarryForm.exists_next {m : Mnemonic} {ctor : Reg → Nibble → Nibble → Instr}
    {rel : Word → Word → Bool → Word → Bool → Prop} (hform : RegRegCarryForm m ctor rel) (s : State) (d x y : Reg) :
    ∃ t, exec (ctor d (x.setWidth 4) (y.setWidth 4)) s = .next t ∧
      rel (s.readReg x) (s.readReg y) s.cf (t.readReg d) t.cf ∧ SameRegsBut d s t := by
  obtain ⟨_, heffect⟩ := hform
  obtain ⟨hcompletes, _⟩ := heffect s d (x.setWidth 4) (y.setWidth 4)
  obtain ⟨t, hexec, hrel, hregs, _⟩ := hcompletes (namesReg_setWidth s x) (namesReg_setWidth s y)
  rw [fieldReg_setWidth, fieldReg_setWidth] at hrel
  exact ⟨t, hexec, hrel, hregs⟩

/-- Two instructions of the form, where the first destination is none of the second one's operands: the second one reads
its sources as they were at the start and the CF of the first, and keeps the first one's result. -/
theorem RegRegCarryForm.exists_chain {m : Mnemonic} {ctor : Reg → Nibble → Nibble → Instr}
    {rel : Word → Word → Bool → Word → Bool → Prop} (hform : RegRegCarryForm m ctor rel) (s : State)
    {dLo dHi xHi yHi : Reg} (xLo yLo : Reg) (hd : dLo ≠ dHi) (hx : dLo ≠ xHi) (hy : dLo ≠ yHi) :
    ∃ t u, exec (ctor dLo (xLo.setWidth 4) (yLo.setWidth 4)) s = .next t ∧
      exec (ctor dHi (xHi.setWidth 4) (yHi.setWidth 4)) t = .next u ∧
      rel (s.readReg xLo) (s.readReg yLo) s.cf (u.readReg dLo) t.cf ∧
      rel (s.readReg xHi) (s.readReg yHi) t.cf (u.readReg dHi) u.cf := by
  obtain ⟨t, hlo, hrelLo, hkeptLo⟩ := hform.exists_next s dLo xLo yLo
  obtain ⟨u, hhi, hrelHi, hkeptHi⟩ := hform.exists_next t dHi xHi yHi
  rw [hkeptLo xHi hx.symm, hkeptLo yHi hy.symm] at hrelHi
  rw [← hkeptHi dLo hd] at hrelLo
  exact ⟨t, u, hlo, hhi, hrelLo, hrelHi⟩

/-- Settles O19: CF between the two instructions stands for 65536 in the low words and for 1 in the high ones. -/
theorem carryChainsCompute32Bits : Obligations.CarryChainsCompute32Bits := by
  intro s dLo dHi xLo xHi yLo yHi hcf hd hx hy value
  obtain ⟨haddc, hsubc⟩ := addcAndSubcAreExactWithCarry
  constructor
  · obtain ⟨t, u, hlo, hhi, hsumLo, hsumHi⟩ := haddc.exists_chain s xLo yLo hd hx hy
    refine ⟨t, u, hlo, hhi, ?_⟩
    rw [hcf, Bool.toNat_false] at hsumLo
    simp only [value]
    omega
  · obtain ⟨t, u, hlo, hhi, hdiffLo, hdiffHi⟩ := hsubc.exists_chain s xLo yLo hd hx hy
    refine ⟨t, u, hlo, hhi, ?_⟩
    rw [hcf, Bool.toNat_false] at hdiffLo
    simp only [value]
    omega

end Sys2Proof.Machine
end

section
/-! SUPPORT. Proofs of the statements about logic and shifts (44_logic_shift.md): the form of the shifts once, from the
function each applies, and the bits of those functions. -/

namespace Sys2Proof.Machine

/-! ### Bitwise logic -/

/-- Settles O11: the form of the three instructions with the bits of R102. -/
theorem logicActsBitByBit : Obligations.LogicActsBitByBit :=
  ⟨regRegForm_of_exec (f := and16) (encodes_ofFields .and) (fun _ _ _ _ => rfl) fun _ _ _ _ => BitVec.getLsbD_and,
    regRegForm_of_exec (f := or16) (encodes_ofFields .or) (fun _ _ _ _ => rfl) fun _ _ _ _ => BitVec.getLsbD_or,
    regRegForm_of_exec (f := xor16) (encodes_ofFields .xor) (fun _ _ _ _ => rfl) fun _ _ _ _ => BitVec.getLsbD_xor⟩

/-! ### Shifts -/

theorem opShift_of_namesReg {s : State} {rA : Reg} {op2 op3 : Nibble} (f : Word → Nibble → Word)
    (h2 : NamesReg s op2) :
    opShift f rA op2 op3 s = .next (s.writeReg rA (f (s.readReg (fieldReg op2)) op3)).advance :=
  ((opShift_cases f rA op2 op3 s).resolve_right fun h => h.1 h2).2

/-- An instruction that applies `f` to a source register and its imm4 has the form for every relation that `f` meets. -/
theorem shiftForm_of_exec {m : Mnemonic} {ctor : Reg → Nibble → Nibble → Instr} {f : Word → Nibble → Word}
    {rel : Word → Nat → Word → Prop}
    (hencodes : ∀ rA op2 op3, Encodes m rA op2 op3 (ctor rA op2 op3))
    (hexec : ∀ s rA op2 op3, exec (ctor rA op2 op3) s = opShift f rA op2 op3 s)
    (hrel : ∀ x n, rel x n.toNat (f x n)) : ShiftForm m ctor rel := by
  refine ⟨hencodes, fun s rA op2 op3 => ⟨fun h2 => ?_, fun hn => ?_⟩⟩
  · refine ⟨_, (hexec s rA op2 op3).trans (opShift_of_namesReg f h2), ?_, writeReg_advance_frame s rA _⟩
    rw [readReg_writeReg_advance_same]
    exact hrel _ op3
  · exact (hexec s rA op2 op3).trans (opShift_of_not_namesReg f hn)

/-- Bit `k` of SRA's result comes from `n` places above, and beyond the top it is bit 15. -/
theorem sra16_getLsbD (a : Word) (n : Nibble) {k : Nat} (hk : k < 16) :
    (sra16 a n).getLsbD k = if k + n.toNat < 16 then a.getLsbD (k + n.toNat) else a.getLsbD 15 := by
  have hinside : ¬ 16 ≤ k := Nat.not_le.2 hk
  rw [sra16_eq_sshiftRight, BitVec.getLsbD_sshiftRight, Nat.add_comm n.toNat k, BitVec.msb_eq_getLsbD_last]
  simp [hinside]

/-- Settles O12: the form of the four instructions with the formulas of R103; SLA applies the same function as SLL. -/
theorem shiftsMoveBitsWithoutFlags : Obligations.ShiftsMoveBitsWithoutFlags :=
  ⟨shiftForm_of_exec (encodes_ofFields .sll) (fun _ _ _ _ => rfl) shl16_toNat,
    shiftForm_of_exec (encodes_ofFields .srl) (fun _ _ _ _ => rfl) shr16_toNat,
    shiftForm_of_exec (encodes_ofFields .sla) (fun _ _ _ _ => rfl) shl16_toNat,
    shiftForm_of_exec (encodes_ofFields .sra) (fun _ _ _ _ => rfl) fun x n _ => sra16_getLsbD x n⟩

end Sys2Proof.Machine
end

section
/-! SUPPORT. Proofs of the statements about control transfer (45_control_transfer.md): a transfer writes pc alone, the
form of JMPR and the branches once, and the condition of each. -/

namespace Sys2Proof.Machine

/-! ### What a transfer leaves unchanged, and where it faults -/

/-- The frame of an instruction that only moves pc. -/
theorem State.setPc_frame (s : State) (target : Word) :
    SameRegs s (s.setPc target) ∧ SameFlags s (s.setPc target) ∧ SameCode s (s.setPc target) ∧
      SameData s (s.setPc target) ∧ SameRun s (s.setPc target) :=
  ⟨s.readReg_setPc target, ⟨rfl, rfl, rfl⟩, fun _ => rfl, fun _ => rfl, ⟨rfl, rfl⟩⟩

/-- A transfer out of instruction memory is not checked: the fetch of the next step faults (decision D8). -/
theorem step_setPc_of_le {s : State} {target : Word} (hrun : s.status = .running) (htarget : 256 ≤ target.toNat) :
    step (s.setPc target) = .next (FaultedBy .addressOutOfRange (s.setPc target)) :=
  step_of_fetchDecode_error hrun (State.fetchDecode_of_le htarget)

theorem branchTarget_toNat (base : Word) (op2 op3 : Nibble) :
    (branchTarget base op2 op3).toNat = (base.toNat + (op2.toNat * 16 + op3.toNat)) % 65536 := by
  rw [branchTarget, BitVec.toNat_add, imm8Word_toNat]

/-! ### JUMP -/

/-- Settles O13: JUMP sets pc to imm8, whose two nibbles make a number below 256. -/
theorem jumpGoesToItsImmediate : Obligations.JumpGoesToItsImmediate := by
  refine ⟨encodes_ofFields .jump, fun s op2 op3 => ?_⟩
  have hpc : (s.setPc (imm8Word op2 op3)).pc.toNat = op2.toNat * 16 + op3.toNat := imm8Word_toNat op2 op3
  exact ⟨s.setPc (imm8Word op2 op3), rfl, hpc, by omega, s.setPc_frame _⟩

/-! ### JMPR and the branches -/

section
variable {taken : Bool} (rA : Reg) (op2 op3 : Nibble) (s : State)

theorem opBranch_of_taken (h : taken = true) :
    opBranch taken rA op2 op3 s = .next (s.setPc (branchTarget (s.readReg rA) op2 op3)) :=
  congrArg _ (if_pos h)

theorem opBranch_of_not_taken (h : ¬ taken = true) : opBranch taken rA op2 op3 s = .next (s.setPc s.nextPc) :=
  congrArg _ (if_neg h)

end

/-- An instruction that branches where `taken` is true has the form for every condition that `taken` decides. -/
theorem branchForm_of_exec {m : Mnemonic} {ctor : Reg → Nibble → Nibble → Instr} {taken : State → Bool}
    {cond : State → Prop} (hencodes : ∀ rA op2 op3, Encodes m rA op2 op3 (ctor rA op2 op3))
    (hexec : ∀ s rA op2 op3, exec (ctor rA op2 op3) s = opBranch (taken s) rA op2 op3 s)
    (hcond : ∀ s, taken s = true ↔ cond s) : BranchForm m ctor cond := by
  refine ⟨hencodes, fun s rA op2 op3 => ?_⟩
  rw [hexec]
  by_cases h : cond s
  · obtain ⟨hregs, hflags, hcode, hdata, hrun⟩ := s.setPc_frame (branchTarget (s.readReg rA) op2 op3)
    exact ⟨_, opBranch_of_taken rA op2 op3 s ((hcond s).2 h), fun _ => branchTarget_toNat _ op2 op3,
      fun hn => absurd h hn, hregs, hflags, hcode, hdata, hrun, step_setPc_of_le⟩
  · obtain ⟨hregs, hflags, hcode, hdata, hrun⟩ := s.setPc_frame s.nextPc
    exact ⟨_, opBranch_of_not_taken rA op2 op3 s fun ht => h ((hcond s).1 ht), fun hc => absurd hc h,
      fun _ => s.nextPc_toNat, hregs, hflags, hcode, hdata, hrun, step_setPc_of_le⟩

/-- Settles O14: JMPR is the branch that is always taken. -/
theorem jmprGoesToRegisterPlusImmediate : Obligations.JmprGoesToRegisterPlusImmediate :=
  branchForm_of_exec (taken := fun _ => true) (encodes_ofFields .jmpr) (fun _ _ _ _ => rfl)
    fun _ => iff_of_true rfl trivial

/-- Settles O15: BZ, BN and BC are taken where their flag is set; BNZ, BNN and BNC where it is clear. -/
theorem branchesFollowTheirFlag : Obligations.BranchesFollowTheirFlag := by
  have hclear (flag : Bool) : (!flag) = true ↔ flag = false := iff_of_eq (Bool.not_eq_true' flag)
  refine ⟨?bz, ?bnz, ?bn, ?bnn, ?bc, ?bnc⟩
  case bz => exact branchForm_of_exec (encodes_ofFields .bz) (taken := (·.zf)) (fun _ _ _ _ => rfl) fun _ => Iff.rfl
  case bnz => exact branchForm_of_exec (encodes_ofFields .bnz) (taken := (!·.zf)) (fun _ _ _ _ => rfl) fun _ => hclear _
  case bn => exact branchForm_of_exec (encodes_ofFields .bn) (taken := (·.nf)) (fun _ _ _ _ => rfl) fun _ => Iff.rfl
  case bnn => exact branchForm_of_exec (encodes_ofFields .bnn) (taken := (!·.nf)) (fun _ _ _ _ => rfl) fun _ => hclear _
  case bc => exact branchForm_of_exec (encodes_ofFields .bc) (taken := (·.cf)) (fun _ _ _ _ => rfl) fun _ => Iff.rfl
  case bnc => exact branchForm_of_exec (encodes_ofFields .bnc) (taken := (!·.cf)) (fun _ _ _ _ => rfl) fun _ => hclear _

end Sys2Proof.Machine
end

section
/-! SUPPORT. Proofs of the statements about faults and the diagnostics projection (60_exceptions.md): a fault changes the
status alone, so the state it leads to shows the cause it was taken for; and the projection shows the decoded word at pc. -/

namespace Sys2Proof.Machine

/-! ### Faults are precise -/

/-- An instruction executed in Running that ends in a fault has changed the status and nothing else. -/
theorem exec_fault_precise {i : Instr} {s t : State} {reason : FaultReason} (hrun : s.status = .running)
    (h : exec i s = .next t) (ht : t.status = .faulted reason) : t = FaultedBy reason s := by
  cases exec_effect h with
  | illegalRegister | outOfRange => cases ht; rfl
  | halts => split at ht <;> cases ht
  | writes | writesCarry | compares | stores | transfers => cases hrun.symm.trans ht

/-- Settles O25: fetch and decode raise on the state before the step, and execution ends in a fault as
`exec_fault_precise` says. -/
theorem faultsArePrecise : Obligations.FaultsArePrecise := by
  intro s t reason h ht
  obtain ⟨hrun, ⟨_, rfl⟩ | ⟨_, _, rfl⟩ | ⟨i, _, hexec⟩⟩ := step_cases h
  · cases ht; rfl
  · cases ht; rfl
  · exact exec_fault_precise hrun hexec ht

/-! ### The causes of faults -/

/-- A LOAD or STORE fetched in Running whose effective address is outside data memory takes AddressOutOfRange. -/
theorem step_of_access_outOfRange {s : State} {rA : Reg} {op2 op3 : Nibble} (hrun : s.status = .running)
    (hfetch : s.Fetches (.load rA op2 op3) ∨ s.Fetches (.store rA op2 op3)) (hnames : NamesReg s op2)
    (hea : 256 ≤ ((s.readReg (fieldReg op2)).toNat + op3.toNat) % 65536) :
    step s = .next (FaultedBy .addressOutOfRange s) := by
  rw [← effectiveAddress_toNat] at hea
  rcases hfetch with hload | hstore
  · exact (step_of_fetches hrun hload).trans (exec_load_of_le rA hnames hea)
  · exact (step_of_fetches hrun hstore).trans (exec_store_of_le rA hnames hea)

/-- In Running the cause of a fault makes the step take it. The cause in `s` is what explains the end of `s` with the
fault taken, since that end is explained by fields the fault leaves as they were. -/
theorem step_of_cause {s : State} {reason : FaultReason} (hrun : s.status = .running)
    (hcause : (FaultedBy reason s).EndExplained) : step s = .next (FaultedBy reason s) := by
  obtain ⟨hfetch, hdecode, hfields, _⟩ := stepStagesInOrder s hrun
  cases reason with
  | unknownOpcode =>
    obtain ⟨hpc, hreserved⟩ := hcause
    exact hdecode hpc hreserved
  | illegalRegisterIndex =>
    obtain ⟨hpolicy, i, hi, hill⟩ := hcause
    exact hfields i hi hpolicy hill
  | addressOutOfRange =>
    rcases hcause with hpc | ⟨rA, op2, op3, hi, hnames, hea⟩
    · exact hfetch hpc
    · exact step_of_access_outOfRange hrun hi hnames hea

/-- A step takes a fault exactly for its cause: the fault is precise and its end is explained, and the cause forces the
step. -/
theorem step_faulted_iff_cause {s t : State} (h : step s = .next t) (reason : FaultReason) :
    t.status = .faulted reason ↔ (FaultedBy reason s).EndExplained := by
  constructor
  · intro ht
    rw [← faultsArePrecise s t reason h ht]
    exact everyStepExplainsItsEnd s t h
  · intro hcause
    cases h.symm.trans (step_of_cause (step_cases h).1 hcause)
    rfl

/-- Settles O26: the causes are what `State.EndExplained` says for each of the three reasons. -/
theorem faultsHaveExactlyTheirCauses : Obligations.FaultsHaveExactlyTheirCauses := fun _ _ h =>
  ⟨step_faulted_iff_cause h .unknownOpcode, step_faulted_iff_cause h .illegalRegisterIndex,
    step_faulted_iff_cause h .addressOutOfRange⟩

/-! ### The fetched instruction and its word -/

section
variable {s : State} {i : Instr}

/-- The fetched instruction's mnemonic is the one found for its opcode, and its fields are those of its word. -/
theorem State.Fetches.mnemonicOf_and_eq_ofFields (h : s.Fetches i) :
    s.params.opcodeMap.mnemonicOf (opcodeField (s.imem.read s.pc.toNat)) = some i.mnemonic ∧
      i = Instr.ofFields i.mnemonic (op1Field (s.imem.read s.pc.toNat)) (op2Field (s.imem.read s.pc.toNat))
        (op3Field (s.imem.read s.pc.toNat)) := by
  obtain ⟨_, hdecode⟩ := h
  cases hm : s.params.opcodeMap.mnemonicOf (opcodeField (s.imem.read s.pc.toNat)) with
  | none => rw [decode_of_mnemonicOf_eq_none hm] at hdecode; cases hdecode
  | some m =>
    rw [decode_of_mnemonicOf hm] at hdecode
    cases hdecode
    rw [Instr.mnemonic_ofFields]
    exact ⟨rfl, rfl⟩

theorem State.Fetches.op2Field_eq (h : s.Fetches i) (hm : ¬ i.mnemonic.UsesNoField) :
    op2Field (s.imem.read s.pc.toNat) = i.op2 := by
  rw [h.mnemonicOf_and_eq_ofFields.2, Instr.op2_ofFields, if_neg hm]

theorem State.Fetches.op3Field_eq (h : s.Fetches i) (hm : ¬ i.mnemonic.UsesNoField) :
    op3Field (s.imem.read s.pc.toNat) = i.op3 := by
  rw [h.mnemonicOf_and_eq_ofFields.2, Instr.op3_ofFields, if_neg hm]

/-- Inside instruction memory, where nothing is fetched, the opcode at pc has no mnemonic. -/
theorem State.mnemonicOf_eq_none_of_not_fetches (hpc : s.pc.toNat < 256) (h : ∀ i, ¬ s.Fetches i) :
    s.params.opcodeMap.mnemonicOf (opcodeField (s.imem.read s.pc.toNat)) = none := by
  by_contra hm
  obtain ⟨i, hi⟩ := exists_decode_eq_ok_iff.2 hm
  exact h i ⟨hpc, hi⟩

/-! ### The projection -/

theorem State.currentInstr_of_le (h : 256 ≤ s.pc.toNat) : s.currentInstr = none := if_neg (Nat.not_lt.2 h)

/-- What the projection shows of the word at pc inside instruction memory. -/
theorem State.exists_currentInstr_of_lt (h : s.pc.toNat < 256) :
    ∃ c, s.currentInstr = some c ∧ c.word = s.imem.read s.pc.toNat ∧
      c.mnemonic = s.params.opcodeMap.mnemonicOf (opcodeField (s.imem.read s.pc.toNat)) ∧
      c.cell = if c.mnemonic = some .load ∨ c.mnemonic = some .store then s.touchedCell (s.imem.read s.pc.toNat)
        else none :=
  ⟨_, if_pos h, rfl, rfl, rfl⟩

/-- The cell a word touches: the one at its effective address, where its op2 names a register and the address is inside
data memory. -/
theorem State.touchedCell_eq (s : State) (w : Word) :
    s.touchedCell w =
      if NamesReg s (op2Field w) ∧ (effectiveAddress (s.readReg (fieldReg (op2Field w))) (op3Field w)).toNat < 256 then
        some (effectiveAddress (s.readReg (fieldReg (op2Field w))) (op3Field w),
          s.dmem.read (effectiveAddress (s.readReg (fieldReg (op2Field w))) (op3Field w)).toNat)
      else none := by
  by_cases hnames : NamesReg s (op2Field w)
  · simp only [State.touchedCell, regfield_of_namesReg hnames, hnames, true_and]
  · simp only [State.touchedCell, regfield_of_not_namesReg hnames, hnames, false_and, if_false]

/-- The cell a fetched LOAD or STORE touches, by its own fields. -/
theorem State.Fetches.touchedCell_eq (h : s.Fetches i) (hm : i.mnemonic = .load ∨ i.mnemonic = .store) :
    s.touchedCell (s.imem.read s.pc.toNat) =
      if NamesReg s i.op2 ∧ (effectiveAddress (s.readReg (fieldReg i.op2)) i.op3).toNat < 256 then
        some (effectiveAddress (s.readReg (fieldReg i.op2)) i.op3,
          s.dmem.read (effectiveAddress (s.readReg (fieldReg i.op2)) i.op3).toNat)
      else none := by
  have huses : ¬ i.mnemonic.UsesNoField := by rcases hm with hm | hm <;> simp [hm]
  rw [State.touchedCell_eq, h.op2Field_eq huses, h.op3Field_eq huses]

end

/-- Settles O50: inside instruction memory the projection shows the word at pc; what is fetched there decides its
mnemonic, and the cell is that of a LOAD or STORE. -/
theorem projectionShowsStateAndCurrentInstruction : Obligations.ProjectionShowsStateAndCurrentInstruction := by
  intro s
  refine ⟨rfl, rfl, rfl, rfl, rfl, State.currentInstr_of_le, fun hpc => ?_⟩
  obtain ⟨c, hcurrent, hword, hmnemonic, hcell⟩ := State.exists_currentInstr_of_lt hpc
  have hshown {i : Instr} (hi : s.Fetches i) : c.mnemonic = some i.mnemonic :=
    hmnemonic.trans hi.mnemonicOf_and_eq_ofFields.1
  have haccess {i : Instr} (hi : s.Fetches i) (hm : i.mnemonic = .load ∨ i.mnemonic = .store) :
      c.cell = s.touchedCell (s.imem.read s.pc.toNat) :=
    hcell.trans (if_pos (by simpa [hshown hi] using hm))
  refine ⟨c, hcurrent, hword, fun _ => hshown, fun hnone => ?reserved, fun rA op2 op3 hi => ?access,
    fun i hi hload hstore => ?other⟩
  case reserved =>
    have hm : c.mnemonic = none := hmnemonic.trans (State.mnemonicOf_eq_none_of_not_fetches hpc hnone)
    exact ⟨hm, hcell.trans (if_neg (by simp [hm]))⟩
  case access =>
    rcases hi with hi | hi
    · exact (haccess hi (.inl rfl)).trans (hi.touchedCell_eq (.inl rfl))
    · exact (haccess hi (.inr rfl)).trans (hi.touchedCell_eq (.inr rfl))
  case other => exact hcell.trans (if_neg (by simp [hshown hi, hload, hstore]))

end Sys2Proof.Machine
end

section
/-! SUPPORT. Proof of the statement about image files (70_reset_and_hazards.md rules R172 and R173): the value of a word in
each byte order once, then the words of a file by induction on its byte pairs. -/

namespace Sys2Proof.Machine

/-! ### The value of two consecutive bytes -/

/-- Two bytes joined into a word are added: their bits do not overlap. -/
theorem setWidth_or_setWidth_shiftLeft_toNat (low high : Byte) :
    (low.setWidth 16 ||| (high.setWidth 16 <<< 8)).toNat = low.toNat + 256 * high.toNat := by
  have hlow := low.isLt
  have hhigh := high.isLt
  have hshift : (high.setWidth 16 <<< 8).toNat = high.toNat <<< 8 := by
    rw [BitVec.toNat_shiftLeft, BitVec.toNat_setWidth_of_le (by decide), Nat.shiftLeft_eq]
    omega
  rw [BitVec.toNat_or, hshift, BitVec.toNat_setWidth_of_le (by decide), Nat.or_comm,
    ← Nat.shiftLeft_add_eq_or_of_lt hlow, Nat.shiftLeft_eq]
  omega

theorem wordOfBytes_little_toNat (b0 b1 : Byte) :
    (wordOfBytes .little b0 b1).toNat = b0.toNat + 256 * b1.toNat :=
  setWidth_or_setWidth_shiftLeft_toNat b0 b1

theorem wordOfBytes_big_toNat (b0 b1 : Byte) : (wordOfBytes .big b0 b1).toNat = 256 * b0.toNat + b1.toNat := by
  rw [wordOfBytes, BitVec.or_comm, setWidth_or_setWidth_shiftLeft_toNat, Nat.add_comm]

/-! ### The words of a file -/

theorem imageWords_of_odd (order : ByteOrder) {file : List Byte} (hodd : file.length % 2 = 1) :
    imageWords order file = .error .oddLength := by
  induction file using List.twoStepInduction with
  | nil => exact absurd hodd (by decide)
  | singleton b => rfl
  | cons_cons b0 b1 rest ih _ =>
    have hrest : rest.length % 2 = 1 := by simp only [List.length_cons] at hodd; omega
    rw [imageWords, ih hrest]
    rfl

/-- A file of even length is read pair by pair: word `i` is made of the bytes at `2 * i` and `2 * i + 1`. -/
theorem imageWords_of_even (order : ByteOrder) {file : List Byte} (heven : file.length % 2 = 0) :
    ∃ ws, imageWords order file = .ok ws ∧ 2 * ws.length = file.length ∧
      ∀ i, i < ws.length → ws.getD i 0 = wordOfBytes order (file.getD (2 * i) 0) (file.getD (2 * i + 1) 0) := by
  induction file using List.twoStepInduction with
  | nil => exact ⟨[], rfl, rfl, fun i hi => absurd hi (Nat.not_lt_zero i)⟩
  | singleton b => exact absurd heven (by simp)
  | cons_cons b0 b1 rest ih _ =>
    have hrest : rest.length % 2 = 0 := by simp only [List.length_cons] at heven; omega
    obtain ⟨ws, hwords, hlen, hpairs⟩ := ih hrest
    refine ⟨wordOfBytes order b0 b1 :: ws, by rw [imageWords, hwords]; rfl, by simp only [List.length_cons]; omega,
      fun i hi => ?_⟩
    cases i with
    | zero => rfl
    | succ i => exact hpairs i (Nat.lt_of_succ_lt_succ hi)

/-! ### What loading refuses -/

theorem State.loadImage_of_long (s : State) {image : List Word} (hlong : 256 < image.length) :
    s.loadImage image = .error .imageTooLong := if_pos hlong

/-- A file whose words cannot be read is refused for that reason. -/
theorem State.loadFile_of_error (s : State) {order : ByteOrder} {file : List Byte} {e : LoadError}
    (h : imageWords order file = .error e) : s.loadFile order file = .error e := by
  rw [State.loadFile, h]
  rfl

theorem State.loadFile_of_ok (s : State) {order : ByteOrder} {file : List Byte} {ws : List Word}
    (h : imageWords order file = .ok ws) : s.loadFile order file = s.loadImage ws := by
  rw [State.loadFile, h]
  rfl

/-- Settles O48: an odd file has no words; an even one has a word for each byte pair, and is loaded as those words. -/
theorem imageFileLoadsWordsInItsByteOrder : Obligations.ImageFileLoadsWordsInItsByteOrder := by
  intro s order file
  refine ⟨fun hodd => s.loadFile_of_error (imageWords_of_odd order hodd), fun heven => ?_⟩
  obtain ⟨ws, hwords, hlen, hpairs⟩ := imageWords_of_even order heven
  have hload := s.loadFile_of_ok hwords
  refine ⟨ws, hload, hlen, fun hlong => hload.trans (s.loadImage_of_long hlong), fun i hi => ?_⟩
  rw [hpairs i hi]
  cases order with
  | little => exact wordOfBytes_little_toNat _ _
  | big => exact wordOfBytes_big_toNat _ _

end Sys2Proof.Machine
end
